-- ==== Sys2Proof/Word.lean ====
section
/-! DEFINITION. The widths of the CORE (00_scope.md R2, R5, R8): every value is an unsigned number of a stated width. -/

namespace Sys2Proof

/-- A general register, a timer or a memory cell (R5, R12, R19, R26). -/
abbrev Byte := BitVec 8

/-- An opcode word, and the width of PC, I and a stack entry (R15, R16, R17, R42). -/
abbrev Word := BitVec 16

/-- The 12-bit immediate `nnn`, an address (R43). -/
abbrev Addr := BitVec 12

/-- A register index `x` or `y` (R43). -/
abbrev Reg := BitVec 4

/-- The 4-bit immediate `n` (R43). -/
abbrev Nibble := BitVec 4

end Sys2Proof
end

