-- ==== Sys2Proof/Syntax.lean ====
section
/-! DEFINITION. The instruction descriptors of the decoder: one constructor per row of spec/opcode_table.json
(30_encoding.md R45, R46), the fallback row UNKNOWN among them. -/

namespace Sys2Proof

/-- An opcode tag with its operand fields (30_encoding.md R43, R46). -/
inductive Instr where
  /-- `00E0` clear screen (R95). -/
  | cls
  /-- `00EE` return (R65). -/
  | ret
  /-- `1nnn` jump (R66). -/
  | jp (nnn : Addr)
  /-- `2nnn` call (R67). -/
  | call (nnn : Addr)
  /-- `3xnn` skip if Vx = nn (R69). -/
  | seImm (x : Reg) (nn : Byte)
  /-- `4xnn` skip if Vx ≠ nn (R70). -/
  | sneImm (x : Reg) (nn : Byte)
  /-- `5xy0` skip if Vx = Vy (R71). -/
  | seReg (x y : Reg)
  /-- `6xnn` load immediate (R76). -/
  | ldImm (x : Reg) (nn : Byte)
  /-- `7xnn` add immediate (R77). -/
  | addImm (x : Reg) (nn : Byte)
  /-- `8xy0` register copy (R78). -/
  | ldReg (x y : Reg)
  /-- `8xy1` bitwise OR (R79). -/
  | orReg (x y : Reg)
  /-- `8xy2` bitwise AND (R80). -/
  | andReg (x y : Reg)
  /-- `8xy3` bitwise exclusive OR (R81). -/
  | xorReg (x y : Reg)
  /-- `8xy4` add with carry out (R82). -/
  | addReg (x y : Reg)
  /-- `8xy5` subtract (R83). -/
  | sub (x y : Reg)
  /-- `8xy6` shift Vy right by one into Vx (R84). -/
  | shr (x y : Reg)
  /-- `8xy7` reverse subtract (R85). -/
  | subn (x y : Reg)
  /-- `8xyE` shift Vy left by one into Vx (R86). -/
  | shl (x y : Reg)
  /-- `9xy0` skip if Vx ≠ Vy (R72). -/
  | sneReg (x y : Reg)
  /-- `Annn` load index (R89). -/
  | ldI (nnn : Addr)
  /-- `Bnnn` jump to nnn + V0 (R68). -/
  | jpV0 (nnn : Addr)
  /-- `Cxnn` random byte AND nn (R87). -/
  | rnd (x : Reg) (nn : Byte)
  /-- `Dxyn` draw sprite (R96). -/
  | drw (x y : Reg) (n : Nibble)
  /-- `Ex9E` skip if key pressed (R98). -/
  | skp (x : Reg)
  /-- `ExA1` skip if key not pressed (R99). -/
  | sknp (x : Reg)
  /-- `Fx07` read the delay timer (R103). -/
  | ldVxDt (x : Reg)
  /-- `Fx0A` wait for a key press (R101, R102). -/
  | ldVxK (x : Reg)
  /-- `Fx15` set the delay timer (R104). -/
  | ldDtVx (x : Reg)
  /-- `Fx18` set the sound timer (R105). -/
  | ldStVx (x : Reg)
  /-- `Fx1E` add register to index (R90). -/
  | addI (x : Reg)
  /-- `Fx29` font digit address (R91). -/
  | ldF (x : Reg)
  /-- `Fx33` binary-coded-decimal store (R92). -/
  | ldB (x : Reg)
  /-- `Fx55` register block store (R93). -/
  | stRegs (x : Reg)
  /-- `Fx65` register block load (R94). -/
  | ldRegs (x : Reg)
  /-- Any other word (R47, R62). -/
  | unknown (w : Word)
  deriving DecidableEq, Repr

end Sys2Proof
end

