-- ==== Sys2Proof/WellFormed.lean ====
section
/-! DEFINITION. The (mask, match) table of the opcode map (30_encoding.md R45) and the one well-formedness check it
gives: UNKNOWN carries a word that no row of the table accepts (R47). Every other descriptor is well formed,
since its fields have exactly the widths of R43. -/

namespace Sys2Proof

/-- One row of the opcode map: the word `w` is the row's when `w &&& mask = value` (R45). -/
structure Pattern where
  mask  : Word
  value : Word
  deriving DecidableEq, Repr

/-- The row accepts the word. -/
def Pattern.accepts (p : Pattern) (w : Word) : Bool := w &&& p.mask == p.value

/-- Rows 1 to 9 of R45: 00E0 to 7xnn. -/
def patternsLow : List Pattern :=
  [⟨0xFFFF, 0x00E0⟩, ⟨0xFFFF, 0x00EE⟩, ⟨0xF000, 0x1000⟩, ⟨0xF000, 0x2000⟩, ⟨0xF000, 0x3000⟩,
   ⟨0xF000, 0x4000⟩, ⟨0xF00F, 0x5000⟩, ⟨0xF000, 0x6000⟩, ⟨0xF000, 0x7000⟩]

/-- Rows 10 to 18 of R45: the ALU family 8xyN. -/
def patternsAlu : List Pattern :=
  [⟨0xF00F, 0x8000⟩, ⟨0xF00F, 0x8001⟩, ⟨0xF00F, 0x8002⟩, ⟨0xF00F, 0x8003⟩, ⟨0xF00F, 0x8004⟩,
   ⟨0xF00F, 0x8005⟩, ⟨0xF00F, 0x8006⟩, ⟨0xF00F, 0x8007⟩, ⟨0xF00F, 0x800E⟩]

/-- Rows 19 to 25 of R45: 9xy0 to ExA1. -/
def patternsHigh : List Pattern :=
  [⟨0xF00F, 0x9000⟩, ⟨0xF000, 0xA000⟩, ⟨0xF000, 0xB000⟩, ⟨0xF000, 0xC000⟩, ⟨0xF000, 0xD000⟩,
   ⟨0xF0FF, 0xE09E⟩, ⟨0xF0FF, 0xE0A1⟩]

/-- Rows 26 to 34 of R45: the FxNN family. -/
def patternsMisc : List Pattern :=
  [⟨0xF0FF, 0xF007⟩, ⟨0xF0FF, 0xF00A⟩, ⟨0xF0FF, 0xF015⟩, ⟨0xF0FF, 0xF018⟩, ⟨0xF0FF, 0xF01E⟩,
   ⟨0xF0FF, 0xF029⟩, ⟨0xF0FF, 0xF033⟩, ⟨0xF0FF, 0xF055⟩, ⟨0xF0FF, 0xF065⟩]

/-- The 34 rows of R45, in the table's order. -/
def patterns : List Pattern := patternsLow ++ (patternsAlu ++ (patternsHigh ++ patternsMisc))

/-- Some row of the opcode map accepts the word (R45). -/
def recognised (w : Word) : Bool := patterns.any (·.accepts w)

/-- The descriptor is one the decoder can give: UNKNOWN holds an unrecognised word (R47). -/
def Instr.wellFormed : Instr → Bool
  | .unknown w => !recognised w
  | .cls | .ret | .jp _ | .call _ | .seImm _ _ | .sneImm _ _ | .seReg _ _ | .ldImm _ _ | .addImm _ _ => true
  | .ldReg _ _ | .orReg _ _ | .andReg _ _ | .xorReg _ _ | .addReg _ _ | .sub _ _ | .shr _ _ | .subn _ _ => true
  | .shl _ _ | .sneReg _ _ | .ldI _ | .jpV0 _ | .rnd _ _ | .drw _ _ _ | .skp _ | .sknp _ => true
  | .ldVxDt _ | .ldVxK _ | .ldDtVx _ | .ldStVx _ | .addI _ | .ldF _ | .ldB _ | .stRegs _ | .ldRegs _ => true

end Sys2Proof
end

