-- ==== Sys2Proof/Decode.lean ====
section
/-! DEFINITION. The decoder (30_encoding.md R42 to R50) and, after it, the encoder written from the same patterns.
Decoding a word is total (R49); decoding a byte string rejects, by name, one that ends inside a word. -/

namespace Sys2Proof

/-- `w[15:12]`, the major opcode (R43). -/
def opOf (w : Word) : Nibble := w.extractLsb' 12 4
/-- `w[11:8]`, the first register index (R43). -/
def xOf (w : Word) : Reg := w.extractLsb' 8 4
/-- `w[7:4]`, the second register index (R43). -/
def yOf (w : Word) : Reg := w.extractLsb' 4 4
/-- `w[3:0]`, the 4-bit immediate or minor opcode (R43). -/
def nOf (w : Word) : Nibble := w.extractLsb' 0 4
/-- `w[7:0]`, the 8-bit immediate or minor opcode (R43). -/
def nnOf (w : Word) : Byte := w.extractLsb' 0 8
/-- `w[11:0]`, the 12-bit immediate (R43). -/
def nnnOf (w : Word) : Addr := w.extractLsb' 0 12

/-- Case 0x8 of R46: the minor opcode n selects the ALU operation. -/
def decodeAlu (w : Word) : Instr :=
  if nOf w = 0x0 then .ldReg (xOf w) (yOf w)
  else if nOf w = 0x1 then .orReg (xOf w) (yOf w)
  else if nOf w = 0x2 then .andReg (xOf w) (yOf w)
  else if nOf w = 0x3 then .xorReg (xOf w) (yOf w)
  else if nOf w = 0x4 then .addReg (xOf w) (yOf w)
  else if nOf w = 0x5 then .sub (xOf w) (yOf w)
  else if nOf w = 0x6 then .shr (xOf w) (yOf w)
  else if nOf w = 0x7 then .subn (xOf w) (yOf w)
  else if nOf w = 0xE then .shl (xOf w) (yOf w)
  else .unknown w

/-- Case 0xF of R46: the minor opcode nn selects the operation. -/
def decodeMisc (w : Word) : Instr :=
  if nnOf w = 0x07 then .ldVxDt (xOf w)
  else if nnOf w = 0x0A then .ldVxK (xOf w)
  else if nnOf w = 0x15 then .ldDtVx (xOf w)
  else if nnOf w = 0x18 then .ldStVx (xOf w)
  else if nnOf w = 0x1E then .addI (xOf w)
  else if nnOf w = 0x29 then .ldF (xOf w)
  else if nnOf w = 0x33 then .ldB (xOf w)
  else if nnOf w = 0x55 then .stRegs (xOf w)
  else if nnOf w = 0x65 then .ldRegs (xOf w)
  else .unknown w

/-- The decoder of R46: a pure function of the word, with the strict reading of 00E0, 00EE, 5xy0 and
9xy0 (D16, log 14). -/
def decode (w : Word) : Instr :=
  if opOf w = 0x0 then
    if w = 0x00E0 then .cls else if w = 0x00EE then .ret else .unknown w
  else if opOf w = 0x1 then .jp (nnnOf w)
  else if opOf w = 0x2 then .call (nnnOf w)
  else if opOf w = 0x3 then .seImm (xOf w) (nnOf w)
  else if opOf w = 0x4 then .sneImm (xOf w) (nnOf w)
  else if opOf w = 0x5 then
    if nOf w = 0x0 then .seReg (xOf w) (yOf w) else .unknown w
  else if opOf w = 0x6 then .ldImm (xOf w) (nnOf w)
  else if opOf w = 0x7 then .addImm (xOf w) (nnOf w)
  else if opOf w = 0x8 then decodeAlu w
  else if opOf w = 0x9 then
    if nOf w = 0x0 then .sneReg (xOf w) (yOf w) else .unknown w
  else if opOf w = 0xA then .ldI (nnnOf w)
  else if opOf w = 0xB then .jpV0 (nnnOf w)
  else if opOf w = 0xC then .rnd (xOf w) (nnOf w)
  else if opOf w = 0xD then .drw (xOf w) (yOf w) (nOf w)
  else if opOf w = 0xE then
    if nnOf w = 0x9E then .skp (xOf w) else if nnOf w = 0xA1 then .sknp (xOf w) else .unknown w
  else decodeMisc w

/-- Why a byte string gives no instruction. -/
inductive DecodeError where
  /-- Fewer than the two bytes of a word (R42). Only a byte string from outside can be so short: the fetch always
  has two bytes (40_cycle.md R57). -/
  | truncated
  deriving DecidableEq, Repr

/-- The word of two consecutive bytes, most significant byte first (R42; 20_memory.md R28). -/
def wordOfBytes (hi lo : Byte) : Word := hi ++ lo

/-- Decode one instruction from the front of a byte string, and give the rest (R42). -/
def decodeBytes : List Byte → Except DecodeError (Instr × List Byte)
  | hi :: lo :: rest => .ok (decode (wordOfBytes hi lo), rest)
  | _ => .error .truncated

/-- The word of a descriptor, from the patterns of R45 and the field places of R43. -/
def encode : Instr → Word
  | .cls => 0x00E0
  | .ret => 0x00EE
  | .jp nnn => 0x1#4 ++ nnn
  | .call nnn => 0x2#4 ++ nnn
  | .seImm x nn => 0x3#4 ++ x ++ nn
  | .sneImm x nn => 0x4#4 ++ x ++ nn
  | .seReg x y => 0x5#4 ++ x ++ y ++ 0x0#4
  | .ldImm x nn => 0x6#4 ++ x ++ nn
  | .addImm x nn => 0x7#4 ++ x ++ nn
  | .ldReg x y => 0x8#4 ++ x ++ y ++ 0x0#4
  | .orReg x y => 0x8#4 ++ x ++ y ++ 0x1#4
  | .andReg x y => 0x8#4 ++ x ++ y ++ 0x2#4
  | .xorReg x y => 0x8#4 ++ x ++ y ++ 0x3#4
  | .addReg x y => 0x8#4 ++ x ++ y ++ 0x4#4
  | .sub x y => 0x8#4 ++ x ++ y ++ 0x5#4
  | .shr x y => 0x8#4 ++ x ++ y ++ 0x6#4
  | .subn x y => 0x8#4 ++ x ++ y ++ 0x7#4
  | .shl x y => 0x8#4 ++ x ++ y ++ 0xE#4
  | .sneReg x y => 0x9#4 ++ x ++ y ++ 0x0#4
  | .ldI nnn => 0xA#4 ++ nnn
  | .jpV0 nnn => 0xB#4 ++ nnn
  | .rnd x nn => 0xC#4 ++ x ++ nn
  | .drw x y n => 0xD#4 ++ x ++ y ++ n
  | .skp x => 0xE#4 ++ x ++ 0x9E#8
  | .sknp x => 0xE#4 ++ x ++ 0xA1#8
  | .ldVxDt x => 0xF#4 ++ x ++ 0x07#8
  | .ldVxK x => 0xF#4 ++ x ++ 0x0A#8
  | .ldDtVx x => 0xF#4 ++ x ++ 0x15#8
  | .ldStVx x => 0xF#4 ++ x ++ 0x18#8
  | .addI x => 0xF#4 ++ x ++ 0x1E#8
  | .ldF x => 0xF#4 ++ x ++ 0x29#8
  | .ldB x => 0xF#4 ++ x ++ 0x33#8
  | .stRegs x => 0xF#4 ++ x ++ 0x55#8
  | .ldRegs x => 0xF#4 ++ x ++ 0x65#8
  | .unknown w => w

/-- The two bytes of a word as memory holds them: the most significant byte first (R42). -/
def bytesOfWord (w : Word) : List Byte := [w.extractLsb' 8 8, w.extractLsb' 0 8]

/-- The bytes of an instruction. -/
def encodeBytes (i : Instr) : List Byte := bytesOfWord (encode i)

/-- A table word as a 16-bit word: bit 0 of the table's numbering is the word's bit 0, and bits above `nbits` are 0. -/
def tableWord (nbits w : Nat) : Word := BitVec.ofNat 16 (w % 2 ^ nbits)

/-- What the decoder reads from the bytes of the table word `w`. -/
def decodeTableWord (nbits w : Nat) : Option Instr :=
  match decodeBytes (bytesOfWord (tableWord nbits w)) with
  | .ok (i, _) => some i
  | .error _ => none

end Sys2Proof
end

