-- ==== Sys2Proof/Config.lean ====
section
/-! DEFINITION. What an implementation fixes: the named parameters of 00_scope.md R6, and the free value of the
`rand` oracle. The parameters' defaults are in Machine/Defaults.lean. -/

namespace Sys2Proof

/-- Which key Ex9E and ExA1 test when Vx > 15 (00_scope.md R6, 45_input_timers.md R100, 90_conflicts.md C4). -/
inductive KeyIndexMode where
  | lowNibble
  | outOfRangeNotPressed
  deriving DecidableEq, Repr

/-- The named parameters the model takes as arguments (00_scope.md R6). They are fixed configuration: nothing writes
them (10_state.md R25). The machine's State carries them, so that a claim about every state covers every value
(log 1). -/
structure Config where
  /-- FONT, the 80 bytes preloaded at 0x000..0x04F (R6, 70_reset_and_hazards.md R121). -/
  font : Vector Byte 80
  keyIndexMode : KeyIndexMode
  /-- The compatibility mode of Fx55 and Fx65 (R6, 43_index_memory.md R93, R94). -/
  blockIndexIncrement : Bool
  deriving DecidableEq, Repr

/-- The byte of the n-th draw from the `rand` oracle (00_scope.md R6, 42_alu.md R87). A FREE VALUE: it has no body,
so nothing can be proved of it (log 3). -/
opaque Config.randByte : Nat → Byte

end Sys2Proof
end

