-- ==== Sys2Proof/Machine/State.lean ====
section
/-! DEFINITION. The machine's state (10_state.md R11), the reasons a step can stop, and the state after reset
(70_reset_and_hazards.md R119). -/

namespace Sys2Proof.Machine

/-- The fatal error kinds (60_exceptions.md R106). -/
inductive FatalCode where
  /-- CALL at SP = 16 (R67). -/
  | stackOverflow
  /-- RET at SP = 0 (R65). -/
  | stackUnderflow
  /-- The raw memory accessor's defensive check; never reached, since every address is masked (R27, R106). -/
  | addressOutOfRange
  deriving DecidableEq, Repr

/-- The core status (10_state.md R24). -/
inductive Status where
  | running
  | halted (e : FatalCode)
  deriving DecidableEq, Repr

/-- The suspension of Fx0A: the register the key goes to, and the latch as last sampled (10_state.md R23). -/
structure Awaiting where
  x    : Reg
  prev : Vector Bool 16
  deriving DecidableEq, Repr

/-- The framebuffer: 32 rows of 64 pixels, row-major (10_state.md R21). -/
abbrev Framebuffer := Vector (Vector Bool 64) 32

/-- Why the machine stops with no next state. No meaning of an instruction, no step and no host operation raises one:
the spec's fatal errors leave a state, status = Halted(e), and are next states here (60_exceptions.md R107, log 5). -/
inductive Fault where
  /-- Raised by the raw memory accessors of Machine/Ops.lean alone, on an address above 0xFFF (R106). SAFE: the
  machine stops where the spec says that it is fatal, and no masked access reaches it. -/
  | fatal (e : FatalCode)
  deriving DecidableEq, Repr

/-- Why there is no transition. -/
inductive Refusal where
  /-- Raised by exec's arms of instructions that have no meaning yet (none today). SAFE: nothing follows from it. -/
  | notModelled (mnemonic : String)
  /-- Raised by the host operation `load` alone, on an image longer than 3584 bytes (70_reset_and_hazards.md R122,
  U9). SAFE: the loader rejects or truncates such an image, and nothing follows from it here. -/
  | oversizedImage (length : Nat)
  deriving DecidableEq, Repr

/-- The state record of 10_state.md R11, with two fields of the model's own at its end. -/
structure State where
  /-- V0..VF (R12); VF is also the flag output (R13, R14). -/
  v : Vector Byte 16
  /-- I, the index register (R15). -/
  i : Word
  /-- PC (R16). During an instruction it is that instruction's address. -/
  pc : Word
  /-- The call stack, entry 0 first; its length is SP (R17, R18). -/
  stack : List Word
  /-- DT (R19). -/
  dt : Byte
  /-- ST (R20). -/
  st : Byte
  /-- Memory (20_memory.md R26), in the canonical form of Memory.wf. -/
  mem : List Host.Cell
  /-- FB (R21). -/
  fb : Framebuffer
  /-- KEY, the input latch (R22). -/
  key : Vector Bool 16
  /-- The wait-for-key state (R23). -/
  wait : Option Awaiting
  /-- The core status (R24). -/
  status : Status
  /-- The model's own: the named parameters (00_scope.md R6, log 1). No transition writes it. -/
  cfg : Config
  /-- The model's own: how many bytes were drawn from the `rand` oracle (00_scope.md R6, log 3). -/
  draws : Nat
  deriving DecidableEq, Repr

/-- The state after reset under given parameters (70_reset_and_hazards.md R119). Memory lists nothing: FONT and the
zeros are what unlisted addresses read as (R121). `draws` is the model's own (log 3). -/
def State.resetWith (c : Config) : State where
  v := Vector.replicate 16 0
  i := 0
  pc := 0x200
  stack := []
  dt := 0
  st := 0
  mem := []
  fb := Vector.replicate 32 (Vector.replicate 64 false)
  key := Vector.replicate 16 false
  wait := none
  status := .running
  cfg := c
  draws := 0

/-- The machine right after reset, under the default parameters (R119; 00_scope.md R6). -/
def State.reset : State := State.resetWith Config.default

end Sys2Proof.Machine
end

