-- ==== Sys2Proof/Machine/Operands.lean ====
section
/-! DEFINITION. The operand forms: 12-bit address formation (20_memory.md R27), and the accessors through which every
register and timer is read and written (10_state.md R12 to R24). -/

namespace Sys2Proof.Machine

/-- `v & 0xFFF` of an unbounded value (20_memory.md R27; 00_scope.md R8). -/
def mask12 (n : Nat) : Nat := n % 0x1000

/-- The 16-bit register value that holds `n & 0xFFF` (10_state.md R15, R16). -/
def addr16 (n : Nat) : Word := BitVec.ofNat 16 (mask12 n)

/-- `V[x]` (10_state.md R12). -/
def State.reg (s : State) (x : Reg) : Byte := s.v[x.toNat]'x.isLt

/-- `V[x] <- b` (10_state.md R12). -/
def State.setReg (s : State) (x : Reg) (b : Byte) : State := { s with v := s.v.set x.toNat b x.isLt }

/-- The index of VF (10_state.md R13). -/
abbrev vf : Reg := 0xF

/-- V0..Vx, in order: the registers Fx55 stores (43_index_memory.md R93). -/
def State.regsUpTo (s : State) (x : Reg) : List Byte := s.v.toList.take (x.toNat + 1)

/-- `I <- n`, masked to 12 bits on write (10_state.md R15). -/
def State.setI (s : State) (n : Nat) : State := { s with i := addr16 n }

/-- `DT <- b` (10_state.md R19). -/
def State.setDt (s : State) (b : Byte) : State := { s with dt := b }

/-- `ST <- b` (10_state.md R20). -/
def State.setSt (s : State) (b : Byte) : State := { s with st := b }

/-- `KEY[k]` (10_state.md R22). -/
def State.keyAt (s : State) (k : Nibble) : Bool := s.key[k.toNat]'k.isLt

/-- The low nibble of a byte, `v & 0xF` (43_index_memory.md R91, 45_input_timers.md R100). -/
def lowNibble (b : Byte) : Nibble := b.extractLsb' 0 4

/-- `wait <- w` (10_state.md R23). -/
def State.setWait (s : State) (w : Option Awaiting) : State := { s with wait := w }

/-- The fresh byte of the `rand` oracle (00_scope.md R6): the free value at the number of draws so far (log 3). -/
def State.drawnByte (s : State) : Byte := Config.randByte s.draws

/-- Count one draw, so that the next one is another value (42_alu.md R87, log 3). -/
def State.countDraw (s : State) : State := { s with draws := s.draws + 1 }

end Sys2Proof.Machine
end

