-- ==== Sys2Proof/Machine/Flags.lean ====
section
/-! DEFINITION. The flag computations (42_alu.md R74) and the order in which a result and a flag are written (R75). -/

namespace Sys2Proof.Machine

/-- A condition as the flag value 1 or 0. -/
def flagOf (c : Bool) : Byte := if c then 1 else 0

/-- The carry of 8xy4: the exact sum exceeds 255 (R74, R82). -/
def carryFlag (a b : Byte) : Byte := flagOf (decide (a.toNat + b.toNat > 255))

/-- NOT borrow of `minuend - subtrahend` (R74, R83, R85). -/
def notBorrowFlag (minuend subtrahend : Byte) : Byte := flagOf (!decide (minuend.toNat < subtrahend.toNat))

/-- The bit a shift right by one drops, bit 0 (R74, R84). -/
def shiftedOutRight (b : Byte) : Byte := flagOf (b.getLsbD 0)

/-- The bit a shift left by one drops, bit 7 (R74, R86). -/
def shiftedOutLeft (b : Byte) : Byte := flagOf (b.getLsbD 7)

/-- `V[x] <- res` and then `V[15] <- f`: the flag is written last (R75; the spec's decision D8, log 10). -/
def State.setResultAndFlag (s : State) (x : Reg) (res f : Byte) : State := (s.setReg x res).setReg vf f

end Sys2Proof.Machine
end

