-- ==== Sys2Proof/Machine/Memory.lean ====
section
/-! DEFINITION. The memory array (20_memory.md R26) as a sorted list of cells that differ from what an unlisted address
reads as. Nothing here masks an address: every access of the machine goes through Machine/Ops.lean, which does (R27). -/

namespace Sys2Proof

/-- What a byte of memory that nothing has written reads as: the reset contents, FONT in 0x000..0x04F and 0x00
above (70_reset_and_hazards.md R119, R121; 20_memory.md R32). -/
def Config.resetByte (c : Config) (a : Nat) : Byte := if h : a < 80 then c.font[a] else 0

/-- `mem[a]` (R26). -/
def Memory.read (c : Config) : List Host.Cell → Nat → Byte
  | [], a => c.resetByte a
  | (k, b) :: m, a => if k = a then b else Memory.read c m a

/-- Put a cell at the front, unless its byte is what the address reads as unlisted. -/
def Memory.listed (c : Config) (a : Nat) (b : Byte) (m : List Host.Cell) : List Host.Cell :=
  if b = c.resetByte a then m else (a, b) :: m

/-- `mem[a] <- b` (R26), keeping the canonical form. -/
def Memory.write (c : Config) : List Host.Cell → Nat → Byte → List Host.Cell
  | [], a, b => Memory.listed c a b []
  | (k, d) :: m, a, b =>
    if k < a then (k, d) :: Memory.write c m a b
    else if k = a then Memory.listed c a b m
    else Memory.listed c a b ((k, d) :: m)

/-- The canonical form: addresses strictly rising and below 4096, and no cell equal to what its address reads as
unlisted. -/
abbrev Memory.wf (c : Config) (m : List Host.Cell) : Prop :=
  (m.map Prod.fst).Pairwise (· < ·) ∧ ∀ p ∈ m, p.1 < 4096 ∧ p.2 ≠ c.resetByte p.1

end Sys2Proof
end

