-- ==== Sys2Proof/Machine/Ops.lean ====
section
/-! DEFINITION. The shared operations: memory accesses, the call stack, the PC sequencer, fatal-error entry, the
framebuffer, the input latch and the instruction fetch. -/

namespace Sys2Proof.Machine

/-- What a step answers. -/
abbrev Result := Host.Outcome State Fault Refusal

/-! ### Memory (20_memory.md R26 to R29) -/

/-- The raw accessor's read, with its defensive check (60_exceptions.md R106, U2). The machine never calls it with
an address above 0xFFF. -/
def State.rawRead (s : State) (a : Nat) : Except Fault Byte :=
  if a > 0xFFF then .error (.fatal .addressOutOfRange) else .ok (Memory.read s.cfg s.mem a)

/-- The raw accessor's write, with its defensive check (60_exceptions.md R106, U2). -/
def State.rawWrite (s : State) (a : Nat) (b : Byte) : Except Fault State :=
  if a > 0xFFF then .error (.fatal .addressOutOfRange) else .ok { s with mem := Memory.write s.cfg s.mem a b }

/-- `MemRead(a, 1)`: the byte at `a & 0xFFF` (00_scope.md R9; 20_memory.md R27). -/
def State.memRead (s : State) (a : Nat) : Byte := Memory.read s.cfg s.mem (mask12 a)

/-- `MemWrite(a, 1, b)`: write the byte at `a & 0xFFF` (00_scope.md R9; 20_memory.md R27). -/
def State.memWrite (s : State) (a : Nat) (b : Byte) : State :=
  { s with mem := Memory.write s.cfg s.mem (mask12 a) b }

/-- Bytes written at `a`, `a + 1`, ..., in increasing address order (20_memory.md R35), each address masked on its own
(92_eei_decisions.md D6, log 6). -/
def State.memWriteBytes (s : State) (a : Nat) : List Byte → State
  | [] => s
  | b :: bs => (s.memWrite a b).memWriteBytes (a + 1) bs

/-- `V[k] <- MemRead(a + k, 1)` for k in 0..x, the other registers as before (43_index_memory.md R94). -/
def State.loadRegs (s : State) (a : Nat) (x : Reg) : State :=
  { s with v := Vector.ofFn fun k : Fin 16 => if k.val ≤ x.toNat then s.memRead (a + k.val) else s.v[k] }

/-- The index update after Fx55 and Fx65: `I + x + 1` in the compatibility mode, else unchanged
(43_index_memory.md R93, R94). -/
def State.blockIndexUpdate (s : State) (x : Reg) : State :=
  if s.cfg.blockIndexIncrement then s.setI (s.i.toNat + x.toNat + 1) else s

/-! ### The PC sequencer (40_cycle.md R60) -/

/-- The sequencing kind an execute arm returns (R60). -/
inductive Seq where
  | seq
  | skip (c : Bool)
  | jump (t : Nat)
  | hold
  deriving DecidableEq, Repr

/-- The new PC (R60); every value is masked to 12 bits (R61, D3, log 6), but for Hold, which keeps PC as it is. -/
def nextPc (k : Seq) (pc : Word) : Word :=
  match k with
  | .seq => addr16 (pc.toNat + 2)
  | .skip c => if c then addr16 (pc.toNat + 4) else addr16 (pc.toNat + 2)
  | .jump t => addr16 t
  | .hold => pc

/-- The end of a step that is not fatal: the sequencer, the single owner of PC, writes it once (R53, R60). -/
def State.advance (s : State) (k : Seq) : State := { s with pc := nextPc k s.pc }

/-- The arm's writes are done; the sequencer moves PC and the step goes on to the next state (R53). -/
def finish (s : State) (k : Seq) : Result := .next (s.advance k)

/-! ### Fatal errors (60_exceptions.md R106 to R108) -/

/-- The numeric label of a fatal error (R106, D15). -/
def FatalCode.number : FatalCode → Nat
  | .stackOverflow => 1
  | .stackUnderflow => 2
  | .addressOutOfRange => 3

/-- Fatal-error entry: `status <- Halted(e)` and nothing else; PC stays at the faulting instruction (R107). There is
no return from it but the host operation reset() (R108), which is `hostReset` in Machine/HostOps.lean. -/
def raiseFatal (e : FatalCode) (s : State) : Result := .next { s with status := .halted e }

/-! ### The call stack (10_state.md R17) -/

/-- `push(v)`: none when SP = 16 (R17). -/
def State.push (s : State) (v : Word) : Option State :=
  if s.stack.length = 16 then none else some { s with stack := s.stack ++ [v] }

/-- `pop()`: the top entry and the state without it; none when SP = 0 (R17). -/
def State.pop (s : State) : Option (Word × State) :=
  match s.stack.getLast? with
  | none => none
  | some a => some (a, { s with stack := s.stack.dropLast })

/-! ### The input latch (45_input_timers.md R100, R102) -/

/-- `key_pressed(v)` under the parameter key_index_mode (R100, 90_conflicts.md C4). -/
def State.keyPressed (s : State) (v : Byte) : Bool :=
  match s.cfg.keyIndexMode with
  | .lowNibble => s.keyAt (lowNibble v)
  | .outOfRangeNotPressed => if v.toNat ≤ 15 then s.keyAt (lowNibble v) else false

/-- Key k is pressed now and was not at the previous sample (R102). -/
def State.freshKey (s : State) (prev : Vector Bool 16) (k : Nibble) : Bool :=
  s.keyAt k && !(prev[k.toNat]'k.isLt)

/-- The lowest-numbered newly pressed key, if any (R102, D18, log 12). -/
def State.lowestFreshKey (s : State) (prev : Vector Bool 16) : Option Nibble :=
  ((List.range 16).map (BitVec.ofNat 4)).find? (s.freshKey prev)

/-! ### The framebuffer (10_state.md R21, 44_display.md R96) -/

/-- `FB[x][y]`, addressed by (x mod 64, y mod 32) (R21). -/
def Framebuffer.pixel (fb : Framebuffer) (x y : Nat) : Bool :=
  (fb[y % 32]'(Nat.mod_lt _ (by decide)))[x % 64]'(Nat.mod_lt _ (by decide))

/-- `FB[x][y] <- b`, addressed by (x mod 64, y mod 32) (R21). -/
def Framebuffer.setPixel (fb : Framebuffer) (x y : Nat) (b : Bool) : Framebuffer :=
  fb.set (y % 32) ((fb[y % 32]'(Nat.mod_lt _ (by decide))).set (x % 64) b (Nat.mod_lt _ (by decide)))
    (Nat.mod_lt _ (by decide))

/-- Every pixel off (R95). -/
def Framebuffer.clear : Framebuffer := Vector.replicate 32 (Vector.replicate 64 false)

/-- A framebuffer being drawn on, and whether a pixel that was on has been turned off so far (R96). -/
structure Canvas where
  fb  : Framebuffer
  hit : Bool
  deriving DecidableEq, Repr

/-- Column c of a sprite row b at row y: a set bit flips its pixel and notes a hit if the pixel was on. Bit 7 is the
leftmost pixel (R96; D21, log 11). -/
def Canvas.drawBit (v : Canvas) (b : Byte) (x y c : Nat) : Canvas :=
  if b.getLsbD (7 - c) then
    { fb := v.fb.setPixel (x + c) y (!v.fb.pixel (x + c) y), hit := v.hit || v.fb.pixel (x + c) y }
  else v

/-- The 8 columns of one sprite row (R96). -/
def Canvas.drawRow (v : Canvas) (b : Byte) (x y : Nat) : Canvas :=
  (List.range 8).foldl (fun w c => w.drawBit b x y c) v

/-- The sprite rows from row y down (R96). -/
def Canvas.drawRows (v : Canvas) (x y : Nat) : List Byte → Canvas
  | [] => v
  | b :: bs => (v.drawRow b x y).drawRows x (y + 1) bs

/-- The n sprite bytes at I, I + 1, ..., each address masked (R96; D6, log 6). -/
def State.spriteBytes (s : State) (n : Nibble) : List Byte :=
  (List.range n.toNat).map fun r => s.memRead (s.i.toNat + r)

/-- The canvas after drawing the sprite of Dxyn (R96). -/
def State.drawn (s : State) (x y : Reg) (n : Nibble) : Canvas :=
  Canvas.drawRows ⟨s.fb, false⟩ (s.reg x).toNat (s.reg y).toNat (s.spriteBytes n)

/-- `FB <- fb`. -/
def State.setFb (s : State) (fb : Framebuffer) : State := { s with fb := fb }

/-! ### Fetch and decode (40_cycle.md R57, R58) -/

/-- The opcode word at PC: the byte at PC and the byte at (PC + 1) & 0xFFF, most significant first (R57). -/
def State.fetchWord (s : State) : Word := wordOfBytes (s.memRead s.pc.toNat) (s.memRead (s.pc.toNat + 1))

/-- The instruction at PC (R57, R58). -/
def State.fetchInstr (s : State) : Instr := decode s.fetchWord

/-- The two bytes of a word stored where the fetch reads them. -/
def State.storeWordAtPc (s : State) (w : Word) : State := s.memWriteBytes s.pc.toNat (bytesOfWord w)

end Sys2Proof.Machine
end

