-- ==== Sys2Proof/Machine/Alu.lean ====
section
/-! DEFINITION. The ALU, the register loads and the random byte (42_alu.md). -/

namespace Sys2Proof.Machine

/-- LD Vx, byte, `6xnn` (R76). -/
def execLdImm (x : Reg) (nn : Byte) (s : State) : Result := finish (s.setReg x nn) .seq

/-- ADD Vx, byte, `7xnn` (R77): no flag (D11, log 10). -/
def execAddImm (x : Reg) (nn : Byte) (s : State) : Result := finish (s.setReg x (s.reg x + nn)) .seq

/-- LD Vx, Vy, `8xy0` (R78). -/
def execLdReg (x y : Reg) (s : State) : Result := finish (s.setReg x (s.reg y)) .seq

/-- OR Vx, Vy, `8xy1` (R79): no flag (D10, log 10). -/
def execOrReg (x y : Reg) (s : State) : Result := finish (s.setReg x (s.reg x ||| s.reg y)) .seq

/-- AND Vx, Vy, `8xy2` (R80): no flag (D10, log 10). -/
def execAndReg (x y : Reg) (s : State) : Result := finish (s.setReg x (s.reg x &&& s.reg y)) .seq

/-- XOR Vx, Vy, `8xy3` (R81): no flag (D10, log 10). -/
def execXorReg (x y : Reg) (s : State) : Result := finish (s.setReg x (s.reg x ^^^ s.reg y)) .seq

/-- ADD Vx, Vy, `8xy4` (R82). -/
def execAddReg (x y : Reg) (s : State) : Result :=
  finish (s.setResultAndFlag x (s.reg x + s.reg y) (carryFlag (s.reg x) (s.reg y))) .seq

/-- SUB Vx, Vy, `8xy5` (R83). -/
def execSub (x y : Reg) (s : State) : Result :=
  finish (s.setResultAndFlag x (s.reg x - s.reg y) (notBorrowFlag (s.reg x) (s.reg y))) .seq

/-- SHR Vx, Vy, `8xy6` (R84): the operand and the flag come from Vy. -/
def execShr (x y : Reg) (s : State) : Result :=
  finish (s.setResultAndFlag x (s.reg y >>> 1) (shiftedOutRight (s.reg y))) .seq

/-- SUBN Vx, Vy, `8xy7` (R85): the minuend is Vy. -/
def execSubn (x y : Reg) (s : State) : Result :=
  finish (s.setResultAndFlag x (s.reg y - s.reg x) (notBorrowFlag (s.reg y) (s.reg x))) .seq

/-- SHL Vx, Vy, `8xyE` (R86): the operand and the flag come from Vy. -/
def execShl (x y : Reg) (s : State) : Result :=
  finish (s.setResultAndFlag x (s.reg y <<< 1) (shiftedOutLeft (s.reg y))) .seq

/-- The effect of Cxnn when the draw is `r` (R87). -/
def rndWith (r : Byte) (x : Reg) (nn : Byte) (s : State) : Result := finish (s.countDraw.setReg x (r &&& nn)) .seq

/-- RND Vx, byte, `Cxnn` (R87): the draw is a free value (log 3). -/
def execRnd (x : Reg) (nn : Byte) (s : State) : Result := rndWith s.drawnByte x nn s

end Sys2Proof.Machine
end

