-- ==== Sys2Proof/Machine/Control.lean ====
section
/-! DEFINITION. Control transfer: return, jumps, call and the register and immediate skips (41_control_flow.md), and
the unknown word (40_cycle.md R62). -/

namespace Sys2Proof.Machine

/-- RET, `00EE` (R65): StackUnderflow at SP = 0, else resume after the CALL whose address is popped (D13, log 7). -/
def execRet (s : State) : Result :=
  match s.pop with
  | none => raiseFatal .stackUnderflow s
  | some (a, t) => finish t (.jump (a.toNat + 2))

/-- JP addr, `1nnn` (R66). -/
def execJp (nnn : Addr) (s : State) : Result := finish s (.jump nnn.toNat)

/-- CALL addr, `2nnn` (R67): StackOverflow at SP = 16, else push the address of this CALL (D13, log 7) and jump. -/
def execCall (nnn : Addr) (s : State) : Result :=
  match s.push s.pc with
  | none => raiseFatal .stackOverflow s
  | some t => finish t (.jump nnn.toNat)

/-- JP V0, addr, `Bnnn` (R68). -/
def execJpV0 (nnn : Addr) (s : State) : Result := finish s (.jump (nnn.toNat + (s.reg 0).toNat))

/-- SE Vx, byte, `3xnn` (R69). -/
def execSeImm (x : Reg) (nn : Byte) (s : State) : Result := finish s (.skip (s.reg x == nn))

/-- SNE Vx, byte, `4xnn` (R70). -/
def execSneImm (x : Reg) (nn : Byte) (s : State) : Result := finish s (.skip (s.reg x != nn))

/-- SE Vx, Vy, `5xy0` (R71). -/
def execSeReg (x y : Reg) (s : State) : Result := finish s (.skip (s.reg x == s.reg y))

/-- SNE Vx, Vy, `9xy0` (R72). -/
def execSneReg (x y : Reg) (s : State) : Result := finish s (.skip (s.reg x != s.reg y))

/-- UNKNOWN(w) (40_cycle.md R62): nothing but the PC changes. The event is an effect of the step
(Machine/Report.lean), so the word plays no part here. -/
def execUnknown (_w : Word) (s : State) : Result := finish s .seq

end Sys2Proof.Machine
end

