-- ==== Sys2Proof/Machine/Display.lean ====
section
/-! DEFINITION. The display instructions (44_display.md). That they report screen_dirty is an effect of the step
(Machine/Report.lean). -/

namespace Sys2Proof.Machine

/-- CLS, `00E0` (R95). -/
def execCls (s : State) : Result := finish (s.setFb Framebuffer.clear) .seq

/-- DRW Vx, Vy, nibble, `Dxyn` (R96): VF is written after the drawing. -/
def execDrw (x y : Reg) (n : Nibble) (s : State) : Result :=
  finish ((s.setFb (s.drawn x y n).fb).setReg vf (flagOf (s.drawn x y n).hit)) .seq

end Sys2Proof.Machine
end

