-- ==== Sys2Proof/Machine/Index.lean ====
section
/-! DEFINITION. The index register and the memory transfers (43_index_memory.md). -/

namespace Sys2Proof.Machine

/-- LD I, addr, `Annn` (R89). -/
def execLdI (nnn : Addr) (s : State) : Result := finish (s.setI nnn.toNat) .seq

/-- ADD I, Vx, `Fx1E` (R90): no flag (D12, log 10). -/
def execAddI (x : Reg) (s : State) : Result := finish (s.setI (s.i.toNat + (s.reg x).toNat)) .seq

/-- LD F, Vx, `Fx29` (R91): the glyph of the low nibble. -/
def execLdF (x : Reg) (s : State) : Result := finish (s.setI (5 * (lowNibble (s.reg x)).toNat)) .seq

/-- The hundreds, tens and ones of a byte (R92). -/
def bcdDigits (b : Byte) : List Byte :=
  [BitVec.ofNat 8 (b.toNat / 100), BitVec.ofNat 8 (b.toNat / 10 % 10), BitVec.ofNat 8 (b.toNat % 10)]

/-- LD B, Vx, `Fx33` (R92): three bytes from I up; I is unchanged. -/
def execLdB (x : Reg) (s : State) : Result := finish (s.memWriteBytes s.i.toNat (bcdDigits (s.reg x))) .seq

/-- LD [I], Vx, `Fx55` (R93): V0..Vx to memory from I up. -/
def execStRegs (x : Reg) (s : State) : Result :=
  finish ((s.memWriteBytes s.i.toNat (s.regsUpTo x)).blockIndexUpdate x) .seq

/-- LD Vx, [I], `Fx65` (R94): V0..Vx from memory from I up. -/
def execLdRegs (x : Reg) (s : State) : Result := finish ((s.loadRegs s.i.toNat x).blockIndexUpdate x) .seq

end Sys2Proof.Machine
end

