-- ==== Sys2Proof/Machine/Input.lean ====
section
/-! DEFINITION. The key skips, the wait for a key with its entry and waiting steps, and the timer instructions
(45_input_timers.md). -/

namespace Sys2Proof.Machine

/-- SKP Vx, `Ex9E` (R98). -/
def execSkp (x : Reg) (s : State) : Result := finish s (.skip (s.keyPressed (s.reg x)))

/-- SKNP Vx, `ExA1` (R99). -/
def execSknp (x : Reg) (s : State) : Result := finish s (.skip (!s.keyPressed (s.reg x)))

/-- LD Vx, K, `Fx0A`, the entry step (R101): snapshot the latch and hold the PC (D18, log 12). -/
def execLdVxK (x : Reg) (s : State) : Result := finish (s.setWait (some { x := x, prev := s.key })) .hold

/-- The waiting step (R102): with no newly pressed key, resample the latch and hold the PC; else the lowest one goes
into Vx and the PC moves past the Fx0A (D18, log 12). -/
def waitStep (w : Awaiting) (s : State) : Result :=
  match s.lowestFreshKey w.prev with
  | none => finish (s.setWait (some { x := w.x, prev := s.key })) .hold
  | some k => finish ((s.setReg w.x (k.setWidth 8)).setWait none) .seq

/-- LD Vx, DT, `Fx07` (R103; log 13). -/
def execLdVxDt (x : Reg) (s : State) : Result := finish (s.setReg x s.dt) .seq

/-- LD DT, Vx, `Fx15` (R104; log 13). -/
def execLdDtVx (x : Reg) (s : State) : Result := finish (s.setDt (s.reg x)) .seq

/-- LD ST, Vx, `Fx18` (R105; log 13). -/
def execLdStVx (x : Reg) (s : State) : Result := finish (s.setSt (s.reg x)) .seq

end Sys2Proof.Machine
end

