-- ==== Sys2Proof/Machine/Step.lean ====
section
/-! DEFINITION. One step of the Cycle Driver (40_cycle.md R53), and where an instruction is placed so that the next
step runs it. -/

namespace Sys2Proof.Machine

/-- `step()` (40_cycle.md R53): nothing while Halted (R55), the waiting step while Awaiting (R56), else fetch, decode
and execute. The outcome kind and the effects that R54 lists are `stepReport` in Machine/Report.lean. -/
def step (s : State) : Host.Outcome State Fault Refusal :=
  match s.status with
  | .halted _ => .next s
  | .running =>
    match s.wait with
    | some w => waitStep w s
    | none => exec s.fetchInstr s

/-- The instruction stored at PC, and the core made ready to fetch it: running and not waiting, since a halted or a
waiting core fetches nothing (R55, R56). -/
def State.withFetchWord (s : State) (nbits w : Nat) : State :=
  { s.storeWordAtPc (tableWord nbits w) with wait := none, status := .running }

end Sys2Proof.Machine
end

