-- ==== Sys2Proof/Machine/Report.lean ====
section
/-! DEFINITION. What a step reports to the host: its outcome kind (00_scope.md R10) and its effects (40_cycle.md R54).
They belong to one step and are not kept as state (R54, D34), so they are computed beside the step (log 4). -/

namespace Sys2Proof.Machine

/-- The effects of a Next step (R54). -/
structure Effects where
  screenDirty : Bool
  awaitingKey : Bool
  /-- The UnknownOpcode event: the PC and the word (R62, D17). -/
  unknown : Option (Word × Word)
  deriving DecidableEq, Repr

/-- The outcome of a step as the host sees it (00_scope.md R10). -/
inductive StepReport where
  | next (e : Effects)
  | fatal (e : FatalCode)
  | halted
  deriving DecidableEq, Repr

/-- The instruction changed or redrew the framebuffer: 00E0 and Dxyn alone (R54, R95, R96; D22, log 4). -/
def marksScreenDirty : Instr → Bool
  | .cls | .drw _ _ _ => true
  | .ret | .jp _ | .call _ | .seImm _ _ | .sneImm _ _ | .seReg _ _ | .ldImm _ _ | .addImm _ _ | .ldReg _ _ => false
  | .orReg _ _ | .andReg _ _ | .xorReg _ _ | .addReg _ _ | .sub _ _ | .shr _ _ | .subn _ _ | .shl _ _ => false
  | .sneReg _ _ | .ldI _ | .jpV0 _ | .rnd _ _ | .skp _ | .sknp _ | .ldVxDt _ | .ldVxK _ | .ldDtVx _ => false
  | .ldStVx _ | .addI _ | .ldF _ | .ldB _ | .stRegs _ | .ldRegs _ | .unknown _ => false

/-- The UnknownOpcode event of an instruction executed at `pc` (R54, R62). -/
def unknownEvent (pc : Word) : Instr → Option (Word × Word)
  | .unknown w => some (pc, w)
  | .cls | .ret | .jp _ | .call _ | .seImm _ _ | .sneImm _ _ | .seReg _ _ | .ldImm _ _ | .addImm _ _ => none
  | .ldReg _ _ | .orReg _ _ | .andReg _ _ | .xorReg _ _ | .addReg _ _ | .sub _ _ | .shr _ _ | .subn _ _ => none
  | .shl _ _ | .sneReg _ _ | .ldI _ | .jpV0 _ | .rnd _ _ | .drw _ _ _ | .skp _ | .sknp _ | .ldVxDt _ => none
  | .ldVxK _ | .ldDtVx _ | .ldStVx _ | .addI _ | .ldF _ | .ldB _ | .stRegs _ | .ldRegs _ => none

/-- The report of a step that ran from a state that was not halted to the state `t`: Fatal(e) when the step halted the
core (R53, R107), else Next with `awaiting_key` true exactly when `wait` is set after the step (R54). -/
def reportAfter (dirty : Bool) (event : Option (Word × Word)) (t : State) : StepReport :=
  match t.status with
  | .halted e => .fatal e
  | .running => .next { screenDirty := dirty, awaitingKey := t.wait.isSome, unknown := event }

/-- The step's effects when it answers `r`. -/
def reportOf (dirty : Bool) (event : Option (Word × Word)) : Result → Option StepReport
  | .next t => some (reportAfter dirty event t)
  | .fault _ => none
  | .refused _ => none

/-- What `step s` reports to the host (R53, R54). -/
def stepReport (s : State) : Option StepReport :=
  match s.status with
  | .halted _ => some .halted
  | .running =>
    match s.wait with
    | some w => reportOf false none (waitStep w s)
    | none => reportOf (marksScreenDirty s.fetchInstr) (unknownEvent s.pc s.fetchInstr) (exec s.fetchInstr s)

end Sys2Proof.Machine
end

