-- ==== Sys2Proof/Machine/HostOps.lean ====
section
/-! DEFINITION. The host's operations on the shared state (20_memory.md R38 to R41; 70_reset_and_hazards.md R119, R122),
and runs that interleave them with steps in any order (20_memory.md R36). -/

namespace Sys2Proof.Machine

/-- A timer decremented with its floor at 0 (10_state.md R19). -/
def countDown (b : Byte) : Byte := if b = 0 then 0 else b - 1

/-- `tick()`: both timers at once, whatever the core's status (20_memory.md R39; D35, log 9). -/
def tick (s : State) : State := { s with dt := countDown s.dt, st := countDown s.st }

/-- `set_key(k, b)` (20_memory.md R40). -/
def setKey (k : Nibble) (b : Bool) (s : State) : State := { s with key := s.key.set k.toNat b k.isLt }

/-- `read_fb()` (20_memory.md R41). -/
def readFb (s : State) : Framebuffer := s.fb

/-- The framebuffer as the flat row-major array of 10_state.md R21: the pixel (x, y) at index y*64 + x. -/
def Framebuffer.flat (fb : Framebuffer) : List Bool := fb.toList.flatMap Vector.toList

/-- `read_timers()` (20_memory.md R41). -/
def readTimers (s : State) : Byte × Byte := (s.dt, s.st)

/-- `reset()`: all previous state is discarded, from any status (70_reset_and_hazards.md R119). The parameters are
configuration and stay (log 1). The count of draws goes on, since draws after a reset are as free as before it
(log 3). -/
def hostReset (s : State) : State := { State.resetWith s.cfg with draws := s.draws }

/-- `load(image)` (70_reset_and_hazards.md R122): the image verbatim from 0x200 up. An image longer than 3584 bytes is
refused (U9, log 8). -/
def load (image : List Byte) (s : State) : Result :=
  if image.length > 3584 then .refused (.oversizedImage image.length) else .next (s.memWriteBytes 0x200 image)

/-- The atomic transitions of the shared state: the operations of 20_memory.md R38, every row of its table. -/
inductive Event where
  | step
  | tick
  | setKey (k : Nibble) (b : Bool)
  | readFb
  | readTimers
  | load (image : List Byte)
  | reset
  deriving DecidableEq, Repr

/-- One transition of the shared state (20_memory.md R36). The read ports change nothing (R41). -/
def transition (e : Event) (s : State) : Result :=
  match e with
  | .step => step s
  | .tick => .next (tick s)
  | .setKey k b => .next (setKey k b s)
  | .readFb => .next s
  | .readTimers => .next s
  | .load image => load image s
  | .reset => .next (hostReset s)

/-- A run: any interleaving of steps and host operations (20_memory.md R36, D27). -/
def runEvents : List Event → State → Result
  | [], s => .next s
  | e :: es, s =>
    match transition e s with
    | .next t => runEvents es t
    | .fault r => .fault r
    | .refused r => .refused r

/-- Whether a run keeps the loader contract (70_reset_and_hazards.md R122): each image fits and is loaded after a
reset with no step between. `fresh` says that this holds of the time before the run: a reset and no step since. Every
other order is free (20_memory.md R36). A run from the state after reset starts fresh. -/
def keepsLoadContract : Bool → List Event → Bool
  | _, [] => true
  | _, .reset :: es => keepsLoadContract true es
  | _, .step :: es => keepsLoadContract false es
  | fresh, .load image :: es => fresh && decide (image.length ≤ 3584) && keepsLoadContract fresh es
  | fresh, .tick :: es => keepsLoadContract fresh es
  | fresh, .setKey _ _ :: es => keepsLoadContract fresh es
  | fresh, .readFb :: es => keepsLoadContract fresh es
  | fresh, .readTimers :: es => keepsLoadContract fresh es

/-- The boot order (70_reset_and_hazards.md R123): reset(), then load(image), then the run. -/
def boot (c : Config) (image : List Byte) (es : List Event) : Result :=
  runEvents (.load image :: es) (State.resetWith c)

end Sys2Proof.Machine
end

