-- ==== Sys2Proof/Safety.lean ====
section
/-! DEFINITION. What counts as a safe state and run: the invariants of 10_state.md R11, and the terms in which
statements speak of what an instruction leaves unchanged. -/

namespace Sys2Proof.Machine

/-- The invariants of R15, R16 and R17 that R11 names, with the memory's canonical form and stack entries that are
addresses (they are saved PC values, R17). -/
structure State.Inv (s : State) : Prop where
  /-- `PC ≤ 0xFFF` (R16). -/
  pc_le : s.pc.toNat ≤ 0xFFF
  /-- `I ≤ 0xFFF` (R15). -/
  i_le : s.i.toNat ≤ 0xFFF
  /-- "depth never exceeds 16" (R17). -/
  depth_le : s.stack.length ≤ 16
  /-- Every saved PC value is a PC value (R16, R17). -/
  entry_le : ∀ a ∈ s.stack, a.toNat ≤ 0xFFF
  /-- Memory is in its canonical form. -/
  mem_wf : Memory.wf s.cfg s.mem

/-- While the core waits, PC is at the Fx0A that waits, and the core is running (10_state.md R23, 40_cycle.md R56). -/
def State.WaitInv (s : State) : Prop :=
  ∀ w, s.wait = some w → s.fetchInstr = .ldVxK w.x ∧ s.status = .running

/-- A halted core stands at the instruction that raised the error, in the condition that raised it
(60_exceptions.md R106, R107); AddressOutOfRange is never the reason. -/
def State.HaltInv (s : State) : Prop :=
  match s.status with
  | .running => True
  | .halted .stackOverflow => s.stack.length = 16 ∧ ∃ nnn, s.fetchInstr = .call nnn
  | .halted .stackUnderflow => s.stack = [] ∧ s.fetchInstr = .ret
  | .halted .addressOutOfRange => False

/-- The parts of the state that a frame speaks of. PC, KEY and `cfg` are not among them: a frame says nothing of PC
and always keeps KEY and `cfg`. -/
inductive Part where
  | regs | index | stack | delay | sound | memory | screen | waiting | status | draws
  deriving DecidableEq, Repr

/-- The part is the same in both states; memory is compared byte by byte through the machine's read. -/
def Part.Same (s t : State) : Part → Prop
  | .regs => ∀ r, t.reg r = s.reg r
  | .index => t.i = s.i
  | .stack => t.stack = s.stack
  | .delay => t.dt = s.dt
  | .sound => t.st = s.st
  | .memory => ∀ a, t.memRead a = s.memRead a
  | .screen => ∀ px py, t.fb.pixel px py = s.fb.pixel px py
  | .waiting => t.wait = s.wait
  | .status => t.status = s.status
  | .draws => t.draws = s.draws

/-- `t` differs from `s` in PC and in the listed parts at most. -/
def FrameBut (parts : List Part) (s t : State) : Prop :=
  (∀ p, p ∉ parts → Part.Same s t p) ∧ t.key = s.key ∧ t.cfg = s.cfg

/-- Every register but those listed is the same. -/
def RegsBut (rs : List Reg) (s t : State) : Prop := ∀ r, r ∉ rs → t.reg r = s.reg r

/-- PC moved on by `n` from the instruction's address, modulo the 4096 addresses (40_cycle.md R60, R61). -/
def PcPlus (n : Nat) (s t : State) : Prop := t.pc.toNat = (s.pc.toNat + n) % 4096

/-- The address `I + k`, masked: the one that Fx33, Fx55, Fx65 and Dxyn access k bytes after their first
(20_memory.md R27). -/
def State.indexed (s : State) (k : Nat) : Nat := mask12 (s.i.toNat + k)

/-- Every byte outside the `n` bytes from I up reads as before. -/
def MemBut (n : Nat) (s t : State) : Prop :=
  ∀ a, (∀ k, k < n → mask12 a ≠ s.indexed k) → t.memRead a = s.memRead a

/-- The effect of a flag-writing ALU instruction: the result in Vx, the flag in VF, every other register as before,
nothing else but PC, which moves to the next word (42_alu.md R74). -/
def AluEffect (x : Reg) (res flag : Nat) (s t : State) : Prop :=
  (t.reg x).toNat = res ∧ (t.reg vf).toNat = flag ∧ RegsBut [x, vf] s t ∧ FrameBut [.regs] s t ∧ PcPlus 2 s t

/-- The same with Vx being VF: the flag alone is left in it (42_alu.md R75). -/
def FlagEffect (flag : Nat) (s t : State) : Prop :=
  (t.reg vf).toNat = flag ∧ RegsBut [vf] s t ∧ FrameBut [.regs] s t ∧ PcPlus 2 s t

/-- A set bit of the sprite of Dxyn lies on the pixel (px, py): row r of the sprite is the byte at I + r, its bit 7 is
the leftmost pixel, and each pixel wraps on its own (44_display.md R96). -/
def SpriteCovers (s : State) (x y : Reg) (n : Nibble) (px py : Nat) : Prop :=
  ∃ r c, r < n.toNat ∧ c < 8 ∧ (s.memRead (s.i.toNat + r)).getLsbD (7 - c) = true ∧
    px = ((s.reg x).toNat + c) % 64 ∧ py = ((s.reg y).toNat + r) % 32

/-- Key k is the lowest-numbered key that is pressed now and was not in the sample (45_input_timers.md R102). -/
def LowestFresh (s : State) (prev : Vector Bool 16) (k : Nibble) : Prop :=
  s.freshKey prev k = true ∧ ∀ j : Nibble, s.freshKey prev j = true → k.toNat ≤ j.toNat

/-- The parts of the state that an instruction may write, PC apart, as its rule gives them (41_control_flow.md to
45_input_timers.md). `index` of Fx55 and Fx65 is for the compatibility mode. -/
def partsOf : Instr → List Part
  | .cls => [.screen]
  | .ret => [.stack, .status]
  | .call _ => [.stack, .status]
  | .jp _ | .jpV0 _ | .seImm _ _ | .sneImm _ _ | .seReg _ _ | .sneReg _ _ | .skp _ | .sknp _ | .unknown _ => []
  | .ldImm _ _ | .addImm _ _ | .ldReg _ _ | .orReg _ _ | .andReg _ _ | .xorReg _ _ | .ldVxDt _ => [.regs]
  | .addReg _ _ | .sub _ _ | .shr _ _ | .subn _ _ | .shl _ _ => [.regs]
  | .rnd _ _ => [.regs, .draws]
  | .ldI _ | .addI _ | .ldF _ => [.index]
  | .drw _ _ _ => [.regs, .screen]
  | .ldVxK _ => [.waiting]
  | .ldDtVx _ => [.delay]
  | .ldStVx _ => [.sound]
  | .ldB _ => [.memory]
  | .stRegs _ => [.memory, .index]
  | .ldRegs _ => [.regs, .index]

/-- The instruction may write VF: as a flag output, or as the destination register x (10_state.md R13). For Fx65 that
is x = F, and Fx0A writes its register in the waiting step only. -/
def mayWriteVf : Instr → Bool
  | .addReg _ _ | .sub _ _ | .shr _ _ | .subn _ _ | .shl _ _ | .drw _ _ _ => true
  | .ldImm x _ | .addImm x _ | .ldReg x _ | .orReg x _ | .andReg x _ | .xorReg x _ | .rnd x _ => x == vf
  | .ldVxDt x | .ldRegs x => x == vf
  | .cls | .ret | .jp _ | .call _ | .seImm _ _ | .sneImm _ _ | .seReg _ _ | .sneReg _ _ | .ldI _ => false
  | .jpV0 _ | .skp _ | .sknp _ | .ldVxK _ | .ldDtVx _ | .ldStVx _ | .addI _ | .ldF _ | .ldB _ => false
  | .stRegs _ | .unknown _ => false

/-- The instruction reads the input latch: Ex9E, ExA1 and Fx0A alone (10_state.md R22). -/
def readsLatch : Instr → Bool
  | .skp _ | .sknp _ | .ldVxK _ => true
  | .cls | .ret | .jp _ | .call _ | .seImm _ _ | .sneImm _ _ | .seReg _ _ | .ldImm _ _ | .addImm _ _ => false
  | .ldReg _ _ | .orReg _ _ | .andReg _ _ | .xorReg _ _ | .addReg _ _ | .sub _ _ | .shr _ _ | .subn _ _ => false
  | .shl _ _ | .sneReg _ _ | .ldI _ | .jpV0 _ | .rnd _ _ | .drw _ _ _ | .ldVxDt _ | .ldDtVx _ => false
  | .ldStVx _ | .addI _ | .ldF _ | .ldB _ | .stRegs _ | .ldRegs _ | .unknown _ => false

end Sys2Proof.Machine
end

