-- ==== Sys2Proof/Certificates/Slice0/Obligations.lean ====
section
/-! DEFINITION. The statements for the provers. Each docstring names the rule of spec/ it formalises, and the spec's
decision or the model's log entry for a clause that rests on one. In every statement `PcPlus` says that PC moves on
modulo 4096: the wrap past 0xFFF is the spec's decision D3 (log 6). -/

open Sys2Proof Sys2Proof.Machine

/-! ### Encoding (30_encoding.md) -/

/-- No bit of an encoding is dropped: a well-formed instruction is decoded back from its word, with every operand at
every value. -/
def Obligations.DecodeOfEncodeIsIdentity : Prop :=
  ∀ i : Instr, i.wellFormed = true → decode (encode i) = i

/-- Each of the 65536 words has one meaning: its descriptor is well formed and is encoded back to the word. -/
def Obligations.EncodeOfDecodeIsIdentity : Prop :=
  ∀ w : Word, encode (decode w) = w ∧ (decode w).wellFormed = true

/-- No two of the 34 rows of the opcode map accept the same word (30_encoding.md, uniqueness). -/
def Obligations.OpcodeRowsNeverOverlap : Prop :=
  ∀ (w : Word) (j k : Fin patterns.length),
    (patterns[j]).accepts w = true → (patterns[k]).accepts w = true → j = k

/-- A word decodes to UNKNOWN exactly when no row of the opcode map accepts it, and UNKNOWN carries the word. -/
def Obligations.UnknownExactlyWhenNoRowAccepts : Prop :=
  ∀ w : Word, ((∀ p ∈ patterns, p.accepts w = false) → decode w = .unknown w) ∧
    ((∃ p ∈ patterns, p.accepts w = true) → ∀ u, decode w ≠ .unknown u)

/-- Each row of the opcode map decodes to its own tag with the fields its pattern names, row by row in the map's
order. -/
def Obligations.EachRowDecodesToItsTag : Prop :=
  ∀ w : Word,
    (w = 0x00E0 → decode w = .cls) ∧ (w = 0x00EE → decode w = .ret) ∧
    (w &&& 0xF000 = 0x1000 → decode w = .jp (nnnOf w)) ∧
    (w &&& 0xF000 = 0x2000 → decode w = .call (nnnOf w)) ∧
    (w &&& 0xF000 = 0x3000 → decode w = .seImm (xOf w) (nnOf w)) ∧
    (w &&& 0xF000 = 0x4000 → decode w = .sneImm (xOf w) (nnOf w)) ∧
    (w &&& 0xF00F = 0x5000 → decode w = .seReg (xOf w) (yOf w)) ∧
    (w &&& 0xF000 = 0x6000 → decode w = .ldImm (xOf w) (nnOf w)) ∧
    (w &&& 0xF000 = 0x7000 → decode w = .addImm (xOf w) (nnOf w)) ∧
    (w &&& 0xF00F = 0x8000 → decode w = .ldReg (xOf w) (yOf w)) ∧
    (w &&& 0xF00F = 0x8001 → decode w = .orReg (xOf w) (yOf w)) ∧
    (w &&& 0xF00F = 0x8002 → decode w = .andReg (xOf w) (yOf w)) ∧
    (w &&& 0xF00F = 0x8003 → decode w = .xorReg (xOf w) (yOf w)) ∧
    (w &&& 0xF00F = 0x8004 → decode w = .addReg (xOf w) (yOf w)) ∧
    (w &&& 0xF00F = 0x8005 → decode w = .sub (xOf w) (yOf w)) ∧
    (w &&& 0xF00F = 0x8006 → decode w = .shr (xOf w) (yOf w)) ∧
    (w &&& 0xF00F = 0x8007 → decode w = .subn (xOf w) (yOf w)) ∧
    (w &&& 0xF00F = 0x800E → decode w = .shl (xOf w) (yOf w)) ∧
    (w &&& 0xF00F = 0x9000 → decode w = .sneReg (xOf w) (yOf w)) ∧
    (w &&& 0xF000 = 0xA000 → decode w = .ldI (nnnOf w)) ∧
    (w &&& 0xF000 = 0xB000 → decode w = .jpV0 (nnnOf w)) ∧
    (w &&& 0xF000 = 0xC000 → decode w = .rnd (xOf w) (nnOf w)) ∧
    (w &&& 0xF000 = 0xD000 → decode w = .drw (xOf w) (yOf w) (nOf w)) ∧
    (w &&& 0xF0FF = 0xE09E → decode w = .skp (xOf w)) ∧
    (w &&& 0xF0FF = 0xE0A1 → decode w = .sknp (xOf w)) ∧
    (w &&& 0xF0FF = 0xF007 → decode w = .ldVxDt (xOf w)) ∧
    (w &&& 0xF0FF = 0xF00A → decode w = .ldVxK (xOf w)) ∧
    (w &&& 0xF0FF = 0xF015 → decode w = .ldDtVx (xOf w)) ∧
    (w &&& 0xF0FF = 0xF018 → decode w = .ldStVx (xOf w)) ∧
    (w &&& 0xF0FF = 0xF01E → decode w = .addI (xOf w)) ∧
    (w &&& 0xF0FF = 0xF029 → decode w = .ldF (xOf w)) ∧
    (w &&& 0xF0FF = 0xF033 → decode w = .ldB (xOf w)) ∧
    (w &&& 0xF0FF = 0xF055 → decode w = .stRegs (xOf w)) ∧
    (w &&& 0xF0FF = 0xF065 → decode w = .ldRegs (xOf w))

/-- Words written out by hand decode to what the spec's decoder vectors say (95_test_vectors.md, 2.1). -/
def Obligations.WrittenOutWordsDecode : Prop :=
  decode 0x00E0 = .cls ∧ decode 0x00EE = .ret ∧ decode 0x0123 = .unknown 0x0123 ∧ decode 0x10EE = .jp 0x0EE ∧
    decode 0x5120 = .seReg 1 2 ∧ decode 0x5121 = .unknown 0x5121 ∧ decode 0x800E = .shl 0 0 ∧
    decode 0x912F = .unknown 0x912F ∧ decode 0xE09E = .skp 0 ∧ decode 0xFF65 = .ldRegs 0xF ∧
    decode 0xDFF0 = .drw 0xF 0xF 0

/-! ### The step (40_cycle.md) -/

/-- A running core that does not wait runs the instruction that the two bytes at PC and PC + 1 decode to: the step is
`exec` of it, with nothing added (the sequencer writes PC inside each arm). -/
def Obligations.StepRunsTheDecodedInstruction : Prop :=
  ∀ (s : State) (i : Instr), s.status = .running → s.wait = none →
    decodeBytes [s.memRead s.pc.toNat, s.memRead (s.pc.toNat + 1)] = .ok (i, []) → step s = exec i s

/-- The definition of `step()`, R53: nothing while halted; the waiting step while waiting; else fetch (most significant
byte first), decode and execute; a step that halts the core changed the status alone and reports Fatal, any other
reports Next. -/
def Obligations.StepFetchesDecodesExecutes : Prop :=
  ∀ s : State,
    (∀ e, s.status = .halted e → step s = .next s ∧ stepReport s = some .halted) ∧
    (s.status = .running → ∀ w, s.wait = some w → step s = waitStep w s) ∧
    (s.status = .running → s.wait = none →
      step s = exec (decode (wordOfBytes (s.memRead s.pc.toNat) (s.memRead (s.pc.toNat + 1)))) s) ∧
    (s.status = .running → ∀ t, step s = .next t →
      (∀ e, t.status = .halted e → t = { s with status := .halted e } ∧ stepReport s = some (.fatal e)) ∧
      (t.status = .running → ∃ f, stepReport s = some (.next f)))

/-- R10: every step has one of three outcomes, and each says what it says of the state; there is no refusal. In the
model a Fatal step answers the halted state and a Halted step the unchanged one (log 5). -/
def Obligations.EveryStepHasOneOfThreeOutcomes : Prop :=
  ∀ s : State, ∃ t r, step s = .next t ∧ stepReport s = some r ∧
    (∀ f, r = .next f → s.status = .running ∧ t.status = .running) ∧
    (∀ e, r = .fatal e → s.status = .running ∧ t = { s with status := .halted e }) ∧
    (r = .halted → (∃ e, s.status = .halted e) ∧ t = s)

/-- The effects a Next step reports: awaiting_key exactly when `wait` is set after the step; screen_dirty exactly for
00E0 and Dxyn (the spec's decision D22 for 00E0); the event exactly for an unknown word, with PC and the word (D17);
neither from a waiting step. They are not state (D34, log 4). -/
def Obligations.StepReportsItsEffects : Prop :=
  ∀ (s t : State) (f : Effects), step s = .next t → stepReport s = some (.next f) →
    f.awaitingKey = t.wait.isSome ∧
    (s.wait = none →
      (f.screenDirty = true ↔ s.fetchInstr = .cls ∨ ∃ x y n, s.fetchInstr = .drw x y n) ∧
      (∀ pc w, f.unknown = some (pc, w) ↔ pc = s.pc ∧ s.fetchInstr = .unknown w)) ∧
    (s.wait ≠ none → f.screenDirty = false ∧ f.unknown = none)

/-- What the PC sequencer computes from each kind. That every value is masked to 12 bits is the spec's decision D3
(log 6). -/
def Obligations.SequencerComputesPc : Prop :=
  ∀ pc : Word, (nextPc .seq pc).toNat = (pc.toNat + 2) % 4096 ∧
    (nextPc (.skip true) pc).toNat = (pc.toNat + 4) % 4096 ∧
    (nextPc (.skip false) pc).toNat = (pc.toNat + 2) % 4096 ∧
    (∀ t, (nextPc (.jump t) pc).toNat = t % 4096) ∧ nextPc .hold pc = pc

/-- R62: an unknown word changes nothing but PC, moves on by one word, and its step reports the event with PC and the
word; the 0nnn words other than 00E0 and 00EE are unknown. -/
def Obligations.UnknownWordIsAReportedNoOp : Prop :=
  (∀ (w : Word) (s : State), ∃ t, exec (.unknown w) s = .next t ∧ PcPlus 2 s t ∧ FrameBut [] s t) ∧
  (∀ s : State, s.status = .running → s.wait = none → s.fetchInstr = .unknown s.fetchWord →
    stepReport s = some (.next { screenDirty := false, awaitingKey := false, unknown := some (s.pc, s.fetchWord) })) ∧
  (∀ w : Word, opOf w = 0x0 → w ≠ 0x00E0 → w ≠ 0x00EE → decode w = .unknown w)

/-! ### Control transfer (41_control_flow.md) -/

/-- RET pops the address of the CALL and resumes after it. That the entry is the CALL's own address and that 2 is added
is the spec's reading (90_conflicts.md C2, D13; log 7). -/
def Obligations.RetResumesAfterTheCall : Prop :=
  ∀ (s : State) (l : List Word) (a : Word), s.stack = l ++ [a] →
    ∃ t, exec .ret s = .next t ∧ t.pc.toNat = (a.toNat + 2) % 4096 ∧ t.stack = l ∧ FrameBut [.stack] s t

/-- JP goes to nnn and changes nothing else; a jump to its own address leaves the state as it is. -/
def Obligations.JpGoesToItsTarget : Prop :=
  ∀ (s : State) (nnn : Addr), ∃ t, exec (.jp nnn) s = .next t ∧ t.pc.toNat = nnn.toNat ∧ FrameBut [] s t ∧
    (s.pc.toNat = nnn.toNat → t = s)

/-- CALL with room on the stack pushes its own address (the spec's decision D13, log 7) and goes to nnn. -/
def Obligations.CallPushesItsAddress : Prop :=
  ∀ (s : State) (nnn : Addr), s.stack.length < 16 →
    ∃ t, exec (.call nnn) s = .next t ∧ t.pc.toNat = nnn.toNat ∧ t.stack = s.stack ++ [s.pc] ∧ FrameBut [.stack] s t

/-- JP V0 goes to nnn + V0; the wrap past 0xFFF is the spec's decision D3 (log 6). -/
def Obligations.JpV0AddsRegisterZero : Prop :=
  ∀ (s : State) (nnn : Addr), ∃ t, exec (.jpV0 nnn) s = .next t ∧
    t.pc.toNat = (nnn.toNat + (s.reg 0).toNat) % 4096 ∧ FrameBut [] s t

/-- R69 and R70: the words 3xnn and 4xnn are the immediate skips, which pass over one word exactly when Vx = nn,
respectively Vx ≠ nn, and change nothing but PC. -/
def Obligations.ImmediateSkips : Prop :=
  (∀ w : Word, opOf w = 0x3 → decode w = .seImm (xOf w) (nnOf w)) ∧
  (∀ w : Word, opOf w = 0x4 → decode w = .sneImm (xOf w) (nnOf w)) ∧
  (∀ (s : State) (x : Reg) (nn : Byte), ∃ t, exec (.seImm x nn) s = .next t ∧
    PcPlus (if s.reg x = nn then 4 else 2) s t ∧ FrameBut [] s t) ∧
  (∀ (s : State) (x : Reg) (nn : Byte), ∃ t, exec (.sneImm x nn) s = .next t ∧
    PcPlus (if s.reg x = nn then 2 else 4) s t ∧ FrameBut [] s t)

/-- R71 and R72: the words 5xy0 and 9xy0 are the register skips (with another low nibble they are UNKNOWN), which pass
over one word exactly when Vx = Vy, respectively Vx ≠ Vy, and change nothing but PC. -/
def Obligations.RegisterSkips : Prop :=
  (∀ w : Word, opOf w = 0x5 → decode w = if nOf w = 0x0 then .seReg (xOf w) (yOf w) else .unknown w) ∧
  (∀ w : Word, opOf w = 0x9 → decode w = if nOf w = 0x0 then .sneReg (xOf w) (yOf w) else .unknown w) ∧
  (∀ (s : State) (x y : Reg), ∃ t, exec (.seReg x y) s = .next t ∧
    PcPlus (if s.reg x = s.reg y then 4 else 2) s t ∧ FrameBut [] s t) ∧
  (∀ (s : State) (x y : Reg), ∃ t, exec (.sneReg x y) s = .next t ∧
    PcPlus (if s.reg x = s.reg y then 2 else 4) s t ∧ FrameBut [] s t)

/-- The round trip of a CALL and a RET that finds the stack as the CALL left it: PC is the CALL's address + 2 and the
stack is as before the CALL. -/
def Obligations.CallThenRetComesBack : Prop :=
  ∀ (s u : State) (nnn : Addr), s.stack.length < 16 →
    ∃ t, exec (.call nnn) s = .next t ∧
      (u.stack = t.stack → ∃ v, exec .ret u = .next v ∧ PcPlus 2 s v ∧ v.stack = s.stack)

/-! ### Fatal errors (60_exceptions.md) and the call stack (10_state.md R17) -/

/-- Fatal-error entry: CALL at SP = 16 and RET at SP = 0 write the status and nothing else. For StackOverflow, and for
the state after it being a next state, this is the spec's decision D14 (log 5). -/
def Obligations.FatalErrorWritesTheStatusAlone : Prop :=
  (∀ (s : State) (nnn : Addr), s.stack.length = 16 →
    exec (.call nnn) s = .next { s with status := .halted .stackOverflow }) ∧
  (∀ s : State, s.stack = [] → exec .ret s = .next { s with status := .halted .stackUnderflow })

/-- No instruction changes the status but CALL at SP = 16 and RET at SP = 0. -/
def Obligations.OnlyCallAndRetHaltTheCore : Prop :=
  ∀ (i : Instr) (s t : State), exec i s = .next t → t.status ≠ s.status →
    (t.status = .halted .stackOverflow ∧ s.stack.length = 16 ∧ ∃ nnn, i = .call nnn) ∨
    (t.status = .halted .stackUnderflow ∧ s.stack = [] ∧ i = .ret)

/-- AddressOutOfRange is never raised: a masked address passes the raw accessor's check, and no transition halts the
core with that code. -/
def Obligations.AddressOutOfRangeIsNeverRaised : Prop :=
  (∀ (s : State) (a : Nat), s.rawRead (mask12 a) = .ok (s.memRead a)) ∧
  (∀ (s : State) (a : Nat) (b : Byte), s.rawWrite (mask12 a) b = .ok (s.memWrite a b)) ∧
  (∀ (e : Event) (s t : State), transition e s = .next t → s.status ≠ .halted .addressOutOfRange →
    t.status ≠ .halted .addressOutOfRange)

/-- R17: only 2nnn pushes and only 00EE pops; a push adds an entry at the top and a pop takes the top one away; at
depth 16 a call is a fatal StackOverflow and at depth 0 a return is a fatal StackUnderflow, with the stack unchanged;
the depth never exceeds 16; the stack is empty after reset. -/
def Obligations.CallStackIsLastInFirstOut : Prop :=
  (∀ (i : Instr) (s t : State), exec i s = .next t → (∀ nnn, i ≠ .call nnn) → i ≠ .ret → t.stack = s.stack) ∧
  (∀ (s : State) (nnn : Addr), s.stack.length < 16 →
    ∃ t v, exec (.call nnn) s = .next t ∧ t.stack = s.stack ++ [v]) ∧
  (∀ (s : State) (nnn : Addr), s.stack.length = 16 →
    ∃ t, exec (.call nnn) s = .next t ∧ t.stack = s.stack ∧ t.status = .halted .stackOverflow) ∧
  (∀ (s : State) (l : List Word) (a : Word), s.stack = l ++ [a] → ∃ t, exec .ret s = .next t ∧ t.stack = l) ∧
  (∀ s : State, s.stack = [] →
    ∃ t, exec .ret s = .next t ∧ t.stack = [] ∧ t.status = .halted .stackUnderflow) ∧
  (∀ s t : State, s.stack.length ≤ 16 → step s = .next t → t.stack.length ≤ 16) ∧
  State.reset.stack = []

/-- A halted core stays halted through every transition but reset, and its steps change nothing; that only reset
leaves Halted is the spec's decision D14. -/
def Obligations.HaltIsLeftOnlyByReset : Prop :=
  ∀ (e : Event) (c : FatalCode) (s t : State), s.status = .halted c → transition e s = .next t →
    (e = .step → t = s) ∧ (e ≠ .reset → t.status = .halted c) ∧ (e = .reset → t.status = .running)

/-! ### ALU (42_alu.md) -/

/-- R76: the words 6xnn load nn into Vx and change nothing else but PC. -/
def Obligations.LoadImmediate : Prop :=
  (∀ w : Word, opOf w = 0x6 → decode w = .ldImm (xOf w) (nnOf w)) ∧
  (∀ (s : State) (x : Reg) (nn : Byte), ∃ t, exec (.ldImm x nn) s = .next t ∧ t.reg x = nn ∧
    RegsBut [x] s t ∧ FrameBut [.regs] s t ∧ PcPlus 2 s t)

/-- ADD Vx, byte: the sum modulo 256, into Vx alone. That VF is not written is the spec's decision D11 (log 10). -/
def Obligations.AddImmediateWrapsWithoutFlag : Prop :=
  ∀ (s : State) (x : Reg) (nn : Byte), ∃ t, exec (.addImm x nn) s = .next t ∧
    (t.reg x).toNat = ((s.reg x).toNat + nn.toNat) % 256 ∧ RegsBut [x] s t ∧ FrameBut [.regs] s t ∧ PcPlus 2 s t

/-- The copy and the three bitwise operations, bit by bit, into Vx alone. That VF is not written is the spec's decision
D10 (log 10). -/
def Obligations.CopyAndBitwiseOperations : Prop :=
  ∀ (s : State) (x y : Reg),
    (∃ t, exec (.ldReg x y) s = .next t ∧ t.reg x = s.reg y ∧ RegsBut [x] s t ∧ FrameBut [.regs] s t ∧
      PcPlus 2 s t) ∧
    (∃ t, exec (.orReg x y) s = .next t ∧
      (∀ k, (t.reg x).getLsbD k = ((s.reg x).getLsbD k || (s.reg y).getLsbD k)) ∧ RegsBut [x] s t ∧
      FrameBut [.regs] s t ∧ PcPlus 2 s t) ∧
    (∃ t, exec (.andReg x y) s = .next t ∧
      (∀ k, (t.reg x).getLsbD k = ((s.reg x).getLsbD k && (s.reg y).getLsbD k)) ∧ RegsBut [x] s t ∧
      FrameBut [.regs] s t ∧ PcPlus 2 s t) ∧
    (∃ t, exec (.xorReg x y) s = .next t ∧
      (∀ k, (t.reg x).getLsbD k = ((s.reg x).getLsbD k ^^ (s.reg y).getLsbD k)) ∧ RegsBut [x] s t ∧
      FrameBut [.regs] s t ∧ PcPlus 2 s t)

/-- R74: the results and the flags of the five flag-writing operations, for a destination that is not VF itself (that
form is FlagIsTheLastWordInVf): the exact sum or difference modulo 256 with the carry or NOT borrow, the shifted Vy
with the bit shifted out. -/
def Obligations.FlaggedAluResultsAndFlags : Prop :=
  ∀ (s : State) (x y : Reg), x ≠ vf →
    (∃ t, exec (.addReg x y) s = .next t ∧ AluEffect x (((s.reg x).toNat + (s.reg y).toNat) % 256)
      (if (s.reg x).toNat + (s.reg y).toNat > 255 then 1 else 0) s t) ∧
    (∃ t, exec (.sub x y) s = .next t ∧ AluEffect x (((s.reg x).toNat + 256 - (s.reg y).toNat) % 256)
      (if (s.reg x).toNat < (s.reg y).toNat then 0 else 1) s t) ∧
    (∃ t, exec (.subn x y) s = .next t ∧ AluEffect x (((s.reg y).toNat + 256 - (s.reg x).toNat) % 256)
      (if (s.reg y).toNat < (s.reg x).toNat then 0 else 1) s t) ∧
    (∃ t, exec (.shr x y) s = .next t ∧ AluEffect x ((s.reg y).toNat / 2) ((s.reg y).toNat % 2) s t) ∧
    (∃ t, exec (.shl x y) s = .next t ∧ AluEffect x ((s.reg y).toNat * 2 % 256) ((s.reg y).toNat / 128) s t)

/-- With VF as the destination of a flag-writing operation, the flag, computed from the old values, is what is left in
VF: the spec's decision D8 (log 10). -/
def Obligations.FlagIsTheLastWordInVf : Prop :=
  ∀ (s : State) (y : Reg),
    (∃ t, exec (.addReg vf y) s = .next t ∧
      FlagEffect (if (s.reg vf).toNat + (s.reg y).toNat > 255 then 1 else 0) s t) ∧
    (∃ t, exec (.sub vf y) s = .next t ∧ FlagEffect (if (s.reg vf).toNat < (s.reg y).toNat then 0 else 1) s t) ∧
    (∃ t, exec (.subn vf y) s = .next t ∧ FlagEffect (if (s.reg y).toNat < (s.reg vf).toNat then 0 else 1) s t) ∧
    (∃ t, exec (.shr vf y) s = .next t ∧ FlagEffect ((s.reg y).toNat % 2) s t) ∧
    (∃ t, exec (.shl vf y) s = .next t ∧ FlagEffect ((s.reg y).toNat / 128) s t)

/-- RND: Vx is the drawn byte AND nn, for every byte the oracle may give (the spec's decision D23), and the next draw is
another free value (log 3: `draws` and `Config.randByte` are the model's own). -/
def Obligations.RandomByteIsMasked : Prop :=
  ∀ (s : State) (x : Reg) (nn : Byte),
    (∃ t, exec (.rnd x nn) s = .next t ∧ t.reg x = Config.randByte s.draws &&& nn ∧ t.draws = s.draws + 1 ∧
      RegsBut [x] s t ∧ FrameBut [.regs, .draws] s t ∧ PcPlus 2 s t) ∧
    (∀ r : Byte, ∃ t, rndWith r x nn s = .next t ∧ t.reg x = r &&& nn ∧ (nn = 0 → t.reg x = 0))

/-! ### Index register and memory (43_index_memory.md) -/

/-- R89: the words Annn load nnn into I and change nothing else but PC. -/
def Obligations.LoadIndex : Prop :=
  (∀ w : Word, opOf w = 0xA → decode w = .ldI (nnnOf w)) ∧
  (∀ (s : State) (nnn : Addr), ∃ t, exec (.ldI nnn) s = .next t ∧ t.i.toNat = nnn.toNat ∧ FrameBut [.index] s t ∧
    PcPlus 2 s t)

/-- ADD I, Vx: the sum modulo 4096, into I alone. That VF is not written is the spec's decision D12 (log 10). -/
def Obligations.AddToIndexWraps : Prop :=
  ∀ (s : State) (x : Reg), ∃ t, exec (.addI x) s = .next t ∧
    t.i.toNat = (s.i.toNat + (s.reg x).toNat) % 4096 ∧ FrameBut [.index] s t ∧ PcPlus 2 s t

/-- R91: the words Fx29 point I at the glyph of the low nibble of Vx, 5 bytes each from 0x000, and change nothing else
but PC. -/
def Obligations.FontDigitAddress : Prop :=
  (∀ w : Word, opOf w = 0xF → nnOf w = 0x29 → decode w = .ldF (xOf w)) ∧
  (∀ (s : State) (x : Reg), ∃ t, exec (.ldF x) s = .next t ∧ t.i.toNat = 5 * ((s.reg x).toNat % 16) ∧
    t.i.toNat ≤ 0x04B ∧ FrameBut [.index] s t ∧ PcPlus 2 s t)

/-- LD B: the hundreds, tens and ones of Vx at I, I + 1, I + 2; every other byte and I itself stay. The addresses wrap by
the spec's decision D6 (log 6). -/
def Obligations.BcdStore : Prop :=
  ∀ (s : State) (x : Reg), ∃ t, exec (.ldB x) s = .next t ∧
    (Memory.wf s.cfg s.mem → (t.memRead s.i.toNat).toNat = (s.reg x).toNat / 100 ∧
      (t.memRead (s.i.toNat + 1)).toNat = (s.reg x).toNat / 10 % 10 ∧
      (t.memRead (s.i.toNat + 2)).toNat = (s.reg x).toNat % 10) ∧
    MemBut 3 s t ∧ FrameBut [.memory] s t ∧ PcPlus 2 s t

/-- LD [I], Vx: Vk at I + k for k up to x; every other byte stays; I stays, or is I + x + 1 in the compatibility mode
(the spec's parameter D20, log 1; the wrap is D6, log 6). -/
def Obligations.BlockStore : Prop :=
  ∀ (s : State) (x : Reg), ∃ t, exec (.stRegs x) s = .next t ∧
    (Memory.wf s.cfg s.mem → ∀ r : Reg, r.toNat ≤ x.toNat → t.memRead (s.i.toNat + r.toNat) = s.reg r) ∧
    MemBut (x.toNat + 1) s t ∧ FrameBut [.memory, .index] s t ∧
    (s.cfg.blockIndexIncrement = false → t.i = s.i) ∧
    (s.cfg.blockIndexIncrement = true → t.i.toNat = (s.i.toNat + x.toNat + 1) % 4096) ∧ PcPlus 2 s t

/-- LD Vx, [I]: Vk from I + k for k up to x; the registers above x stay; I as for the block store (D20, D6; log 1,
log 6). -/
def Obligations.BlockLoad : Prop :=
  ∀ (s : State) (x : Reg), ∃ t, exec (.ldRegs x) s = .next t ∧
    (∀ r : Reg, t.reg r = if r.toNat ≤ x.toNat then s.memRead (s.i.toNat + r.toNat) else s.reg r) ∧
    FrameBut [.regs, .index] s t ∧
    (s.cfg.blockIndexIncrement = false → t.i = s.i) ∧
    (s.cfg.blockIndexIncrement = true → t.i.toNat = (s.i.toNat + x.toNat + 1) % 4096) ∧ PcPlus 2 s t

/-- Self-modifying code: when the block store writes the two bytes of the next word, the next fetch reads them (the
spec's decision D30). -/
def Obligations.StoredWordIsFetchedNext : Prop :=
  ∀ (s : State) (x r q : Reg), Memory.wf s.cfg s.mem → q.toNat = r.toNat + 1 → q.toNat ≤ x.toNat →
    mask12 (s.pc.toNat + 2) = s.indexed r.toNat →
    ∃ t, exec (.stRegs x) s = .next t ∧ t.fetchWord = wordOfBytes (s.reg r) (s.reg q)

/-! ### Display (44_display.md) -/

/-- CLS turns every pixel off and changes nothing else but PC. -/
def Obligations.ClearScreen : Prop :=
  ∀ s : State, ∃ t, exec .cls s = .next t ∧ (∀ px py, t.fb.pixel px py = false) ∧ FrameBut [.screen] s t ∧ PcPlus 2 s t

/-- DRW flips exactly the pixels under the sprite's set bits and leaves in VF whether one of them was on before; no
other register and nothing else but PC changes. The bit order and the wrap of each pixel are the spec's decision D21,
that of the byte addresses D6 (logs 11 and 6). -/
def Obligations.DrawFlipsPixelsAndReportsCollision : Prop :=
  ∀ (s : State) (x y : Reg) (n : Nibble), ∃ t, exec (.drw x y n) s = .next t ∧
    (∀ px py, px < 64 → py < 32 →
      (SpriteCovers s x y n px py → t.fb.pixel px py = !s.fb.pixel px py) ∧
      (¬SpriteCovers s x y n px py → t.fb.pixel px py = s.fb.pixel px py)) ∧
    ((∃ px py, SpriteCovers s x y n px py ∧ s.fb.pixel px py = true) → t.reg vf = 1) ∧
    ((¬∃ px py, SpriteCovers s x y n px py ∧ s.fb.pixel px py = true) → t.reg vf = 0) ∧
    RegsBut [vf] s t ∧ FrameBut [.regs, .screen] s t ∧ PcPlus 2 s t

/-- The double draw: the same Dxyn on the drawn framebuffer, with the same coordinates, I and sprite bytes, restores
every pixel, and sets VF to 1 exactly when the first draw turned a pixel on. -/
def Obligations.DoubleDrawRestoresTheScreen : Prop :=
  ∀ (s : State) (x y : Reg) (n : Nibble), ∃ t, exec (.drw x y n) s = .next t ∧
    ∀ u : State, u.reg x = s.reg x → u.reg y = s.reg y → u.i = s.i →
      (∀ k, k < n.toNat → u.memRead (s.i.toNat + k) = s.memRead (s.i.toNat + k)) →
      (∀ px py, u.fb.pixel px py = t.fb.pixel px py) →
      ∃ v, exec (.drw x y n) u = .next v ∧ (∀ px py, v.fb.pixel px py = s.fb.pixel px py) ∧
        ((∃ px py, SpriteCovers s x y n px py ∧ s.fb.pixel px py = false) → v.reg vf = 1) ∧
        ((¬∃ px py, SpriteCovers s x y n px py ∧ s.fb.pixel px py = false) → v.reg vf = 0)

/-! ### Input and timers (45_input_timers.md) -/

/-- The key skips: the key is the low nibble of Vx, unless Vx > 15 under OutOfRangeNotPressed, which reads as not
pressed (the spec's parameter D19, log 1). -/
def Obligations.KeySkips : Prop :=
  ∀ (s : State) (x : Reg),
    (s.cfg.keyIndexMode = .lowNibble ∨ (s.reg x).toNat ≤ 15 →
      ∀ k : Nibble, k.toNat = (s.reg x).toNat % 16 →
        (∃ t, exec (.skp x) s = .next t ∧ PcPlus (if s.keyAt k then 4 else 2) s t ∧ FrameBut [] s t) ∧
        (∃ t, exec (.sknp x) s = .next t ∧ PcPlus (if s.keyAt k then 2 else 4) s t ∧ FrameBut [] s t)) ∧
    (s.cfg.keyIndexMode = .outOfRangeNotPressed → (s.reg x).toNat > 15 →
        (∃ t, exec (.skp x) s = .next t ∧ PcPlus 2 s t ∧ FrameBut [] s t) ∧
        (∃ t, exec (.sknp x) s = .next t ∧ PcPlus 4 s t ∧ FrameBut [] s t))

/-- Fx0A from its entry to its end: the entry step snapshots the latch, holds PC and changes nothing else; once the
latch holds a key that was not in the snapshot, the next step puts the lowest such key into Vx, ends the wait and
moves PC past the Fx0A. Edge detection and the lowest key are the spec's decision D18 (log 12). -/
def Obligations.WaitForKeyTakesANewlyPressedKey : Prop :=
  ∀ (s : State) (x : Reg), ∃ t, exec (.ldVxK x) s = .next t ∧ t.wait = some { x := x, prev := s.key } ∧
    t.pc = s.pc ∧ FrameBut [.waiting] s t ∧
    (∀ (latch : Vector Bool 16) (k : Nibble), s.status = .running → LowestFresh { t with key := latch } s.key k →
      ∃ u, step { t with key := latch } = .next u ∧ (u.reg x).toNat = k.toNat ∧ RegsBut [x] s u ∧ u.wait = none ∧
        PcPlus 2 s u)

/-- A waiting step with no newly pressed key resamples the latch and changes nothing else, PC included (D18, log 12). -/
def Obligations.WaitingStepWithoutAFreshKeyResamples : Prop :=
  ∀ (s : State) (w : Awaiting), s.status = .running → s.wait = some w → (∀ k, s.freshKey w.prev k = false) →
    ∃ t, step s = .next t ∧ t.wait = some { x := w.x, prev := s.key } ∧ t.pc = s.pc ∧ FrameBut [.waiting] s t

/-- A waiting step with a newly pressed key takes the lowest one: Vx, the end of the wait and PC + 2, nothing else
(D18, log 12). -/
def Obligations.WaitingStepTakesTheLowestFreshKey : Prop :=
  ∀ (s : State) (w : Awaiting) (k : Nibble), s.status = .running → s.wait = some w → LowestFresh s w.prev k →
    ∃ t, step s = .next t ∧ (t.reg w.x).toNat = k.toNat ∧ RegsBut [w.x] s t ∧ t.wait = none ∧
      FrameBut [.regs, .waiting] s t ∧ PcPlus 2 s t

/-- The three timer instructions. Which opcode reads or writes which timer the spec takes from general knowledge (D24,
log 13). -/
def Obligations.TimerInstructions : Prop :=
  ∀ (s : State) (x : Reg),
    (∃ t, exec (.ldVxDt x) s = .next t ∧ t.reg x = s.dt ∧ RegsBut [x] s t ∧ FrameBut [.regs] s t ∧ PcPlus 2 s t) ∧
    (∃ t, exec (.ldDtVx x) s = .next t ∧ t.dt = s.reg x ∧ FrameBut [.delay] s t ∧ PcPlus 2 s t) ∧
    (∃ t, exec (.ldStVx x) s = .next t ∧ t.st = s.reg x ∧ FrameBut [.sound] s t ∧ PcPlus 2 s t)

/-! ### The whole machine -/

/-- Each instruction writes the parts its rule names and no other; none writes the input latch or the parameters. -/
def Obligations.InstructionsWriteOnlyTheirParts : Prop :=
  ∀ (i : Instr) (s t : State), exec i s = .next t → FrameBut (partsOf i) s t

/-- VF is written as a flag by 8xy4 to 8xy7, 8xyE and Dxyn, and otherwise as the destination register x = F alone. -/
def Obligations.VfWriters : Prop :=
  ∀ (i : Instr) (s t : State), exec i s = .next t → mayWriteVf i = false → t.reg vf = s.reg vf

/-- I is written by Annn, Fx1E and Fx29, and by Fx55 and Fx65 in the compatibility mode alone, and every value written
is a 12-bit address. -/
def Obligations.IndexWriters : Prop :=
  ∀ (i : Instr) (s t : State), exec i s = .next t → t.i ≠ s.i →
    t.i.toNat ≤ 0xFFF ∧
    ((∃ nnn, i = .ldI nnn) ∨ (∃ x, i = .addI x) ∨ (∃ x, i = .ldF x) ∨
      (s.cfg.blockIndexIncrement = true ∧ ((∃ x, i = .stRegs x) ∨ ∃ x, i = .ldRegs x)))

/-- R22: the latch is mutated by set_key alone, which writes the one key; the CORE reads it with Ex9E, ExA1 and Fx0A
(with its waiting steps) alone, so that under any other instruction another latch gives the same step; every key is
up after reset. -/
def Obligations.LatchIsReadOnly : Prop :=
  (∀ s t : State, step s = .next t → t.key = s.key) ∧
  (∀ s : State, (tick s).key = s.key) ∧
  (∀ (s : State) (k j : Nibble) (b : Bool), (setKey k b s).keyAt j = if j = k then b else s.keyAt j) ∧
  (∀ (s t : State) (latch : Vector Bool 16), s.wait = none → readsLatch s.fetchInstr = false → step s = .next t →
    step { s with key := latch } = .next { t with key := latch }) ∧
  (∀ k : Nibble, State.reset.keyAt k = false)

/-- No instruction reads the sound timer: with another value in ST a step does the same, and ST ends with the value put
in or with what Fx18 wrote. -/
def Obligations.SoundTimerIsNeverRead : Prop :=
  ∀ (s t : State) (b : Byte), step s = .next t →
    ∃ c, step { s with st := b } = .next { t with st := c } ∧ (c = b ∨ c = t.st)

/-! ### Invariants -/

/-- The invariants of R15, R16 and R17, and the memory's canonical form, are kept by every step from every state that
has them. -/
def Obligations.StepKeepsTheInvariant : Prop :=
  ∀ s t : State, s.Inv → step s = .next t → t.Inv

/-- While the core waits it stays at the Fx0A that waits: every step keeps this. -/
def Obligations.StepKeepsTheWaitAtItsFx0A : Prop :=
  ∀ s t : State, s.WaitInv → step s = .next t → t.WaitInv

/-- A halted core stays at the CALL or RET that halted it, in the condition that did: every step keeps this. -/
def Obligations.StepKeepsTheHaltPrecise : Prop :=
  ∀ s t : State, s.HaltInv → step s = .next t → t.HaltInv

/-- The state after reset has the three invariants, under every value of the parameters. -/
def Obligations.ResetHasTheInvariants : Prop :=
  ∀ c : Config, (State.resetWith c).Inv ∧ (State.resetWith c).WaitInv ∧ (State.resetWith c).HaltInv

/-- R36's runs: every interleaving of steps and host operations that keeps the loader contract, from a state with the
three invariants, answers a state, and that state has them. A run may reset and load a new image at any point; one that
starts fresh, with a load allowed before the first step, starts from a state that is running and not waiting, as a reset
leaves it (ResetState). -/
def Obligations.EveryInterleavingKeepsTheInvariants : Prop :=
  ∀ (fresh : Bool) (es : List Event) (s : State), s.Inv → s.WaitInv → s.HaltInv →
    (fresh = true → s.status = .running ∧ s.wait = none) → keepsLoadContract fresh es = true →
    ∃ t, runEvents es s = .next t ∧ t.Inv ∧ t.WaitInv ∧ t.HaltInv

/-! ### Reset and the host's operations (70_reset_and_hazards.md, 20_memory.md) -/

/-- R120: execution starts at 0x200, running and not waiting, and program bytes are written from 0x200 up. -/
def Obligations.EntryPoint : Prop :=
  State.reset.pc = 0x200 ∧ State.reset.status = .running ∧ State.reset.wait = none ∧
  (∀ s : State, (hostReset s).pc = 0x200 ∧ (hostReset s).status = .running ∧ (hostReset s).wait = none) ∧
  (∀ (s : State) (image : List Byte), Memory.wf s.cfg s.mem → image.length ≤ 3584 →
    ∃ t, load image s = .next t ∧ ∀ k (h : k < image.length), t.memRead (0x200 + k) = image[k])

/-- What reset leaves, from any state and under any parameters: FONT in 0x000..0x04F and zeros above, every register
and timer 0 but PC, which is 0x200, an empty stack, a clear screen, no key, running, not waiting (the spec's decision
D33; `cfg` and `draws` are the model's own, logs 1 and 3). -/
def Obligations.ResetState : Prop :=
  ∀ s : State,
    (∀ r, (hostReset s).reg r = 0) ∧ (hostReset s).i = 0 ∧ (hostReset s).pc = 0x200 ∧ (hostReset s).stack = [] ∧
    (hostReset s).dt = 0 ∧ (hostReset s).st = 0 ∧
    (∀ k : Fin 80, (hostReset s).memRead k.val = s.cfg.font[k]) ∧
    (∀ a, 0x050 ≤ a → a ≤ 0xFFF → (hostReset s).memRead a = 0) ∧
    (∀ px py, (hostReset s).fb.pixel px py = false) ∧ (∀ k, (hostReset s).keyAt k = false) ∧
    (hostReset s).wait = none ∧ (hostReset s).status = .running ∧ (hostReset s).cfg = s.cfg

/-- The loader contract: load writes the image verbatim from 0x200 up and nothing else, the reserved area among what
stays. That an image of more than 3584 bytes is refused is the model's choice (log 8). -/
def Obligations.LoadWritesTheImageVerbatim : Prop :=
  (∀ (s : State) (image : List Byte), image.length ≤ 3584 →
    ∃ t, load image s = .next t ∧
      (Memory.wf s.cfg s.mem → ∀ k (h : k < image.length), t.memRead (0x200 + k) = image[k]) ∧
      (∀ a, a ≤ 0xFFF → a < 0x200 ∨ 0x200 + image.length ≤ a → t.memRead a = s.memRead a) ∧
      FrameBut [.memory] s t ∧ (∀ r, t.reg r = s.reg r) ∧ t.pc = s.pc) ∧
  (∀ (s : State) (image : List Byte), image.length > 3584 → load image s = .refused (.oversizedImage image.length))

/-- A new program in the middle of a run: from any state, reset() and load(image) leave the image from 0x200 up and the
reset contents everywhere else, nothing of the previous program, and the core at 0x200 with every other field as after
reset (`cfg` and `draws` are the model's own and stay, logs 1 and 3). -/
def Obligations.ResetThenLoadStartsANewProgram : Prop :=
  ∀ (s : State) (image : List Byte), image.length ≤ 3584 →
    ∃ t, runEvents [.reset, .load image] s = .next t ∧
      (∀ k (h : k < image.length), t.memRead (0x200 + k) = image[k]) ∧
      (∀ k : Fin 80, t.memRead k.val = s.cfg.font[k]) ∧
      (∀ a, 0x050 ≤ a → a < 0x200 → t.memRead a = 0) ∧
      (∀ a, 0x200 + image.length ≤ a → a ≤ 0xFFF → t.memRead a = 0) ∧
      t = { State.resetWith s.cfg with mem := t.mem, draws := s.draws } ∧ Memory.wf t.cfg t.mem

/-- tick decrements both timers with their floor at 0, and set_key writes one key; neither changes anything else,
whatever the core's status (that one tick decrements both, also while halted, is the spec's decision D35, log 9). The
read ports give FB and the timers and change nothing. -/
def Obligations.HostOperations : Prop :=
  (∀ s : State, (tick s).dt.toNat = s.dt.toNat - 1 ∧ (tick s).st.toNat = s.st.toNat - 1 ∧
    FrameBut [.delay, .sound] s (tick s) ∧ (tick s).pc = s.pc) ∧
  (∀ (s : State) (k j : Nibble) (b : Bool), (setKey k b s).keyAt j = if j = k then b else s.keyAt j) ∧
  (∀ (s : State) (k : Nibble) (b : Bool), (∀ p, Part.Same s (setKey k b s) p) ∧ (setKey k b s).pc = s.pc ∧
    (setKey k b s).cfg = s.cfg) ∧
  (∀ (s : State) (x y : Nat), x < 64 → y < 32 →
    (readFb s).flat[y * 64 + x]? = some (s.fb.pixel x y)) ∧
  (∀ s : State, readTimers s = (s.dt, s.st)) ∧
  (∀ s : State, transition .readFb s = .next s ∧ transition .readTimers s = .next s)
end

