-- ==== Sys2Proof/Laws/Decode.lean ====
section
/-! SUPPORT. The fields, the formats and the masks of an opcode word as numbers (30_encoding.md R43, R45): with these,
facts about words are arithmetic. -/

namespace Sys2Proof

variable (k x y n : BitVec 4) (nn : Byte) (nnn : Addr) (w : Word)

/-! ### The fields of a word -/

@[simp] theorem opOf_toNat : (opOf w).toNat = w.toNat / 4096 := by
  have := w.isLt
  simp only [opOf, BitVec.extractLsb'_toNat, Nat.shiftRight_eq_div_pow]; omega

@[simp] theorem xOf_toNat : (xOf w).toNat = w.toNat / 256 % 16 := by
  simp only [xOf, BitVec.extractLsb'_toNat, Nat.shiftRight_eq_div_pow, Nat.reducePow]

@[simp] theorem yOf_toNat : (yOf w).toNat = w.toNat / 16 % 16 := by
  simp only [yOf, BitVec.extractLsb'_toNat, Nat.shiftRight_eq_div_pow, Nat.reducePow]

@[simp] theorem nOf_toNat : (nOf w).toNat = w.toNat % 16 := by
  simp [nOf, BitVec.extractLsb'_toNat]

@[simp] theorem nnOf_toNat : (nnOf w).toNat = w.toNat % 256 := by
  simp [nnOf, BitVec.extractLsb'_toNat]

@[simp] theorem nnnOf_toNat : (nnnOf w).toNat = w.toNat % 4096 := by
  simp [nnnOf, BitVec.extractLsb'_toNat]

/-! ### The formats -/

theorem toNat_append_eq {a b : Nat} (u : BitVec a) (v : BitVec b) : (u ++ v).toNat = u.toNat * 2 ^ b + v.toNat := by
  rw [BitVec.toNat_append, ← Nat.shiftLeft_add_eq_or_of_lt v.isLt, Nat.shiftLeft_eq]

theorem toNat_nnn : (k ++ nnn).toNat = k.toNat * 4096 + nnn.toNat := toNat_append_eq k nnn

theorem toNat_xnn : (k ++ x ++ nn).toNat = k.toNat * 4096 + x.toNat * 256 + nn.toNat := by
  rw [toNat_append_eq, toNat_append_eq]; omega

theorem toNat_xyn : (k ++ x ++ y ++ n).toNat = k.toNat * 4096 + x.toNat * 256 + y.toNat * 16 + n.toNat := by
  rw [toNat_append_eq, toNat_append_eq, toNat_append_eq]; omega

/-- The word of two bytes, most significant first (R42). -/
theorem wordOfBytes_toNat (hi lo : Byte) : (wordOfBytes hi lo).toNat = hi.toNat * 256 + lo.toNat :=
  toNat_append_eq hi lo

/-- The bytes of a word give the word back (R42). -/
theorem wordOfBytes_bytesOfWord : wordOfBytes (w.extractLsb' 8 8) (w.extractLsb' 0 8) = w := by
  apply BitVec.eq_of_toNat_eq
  rw [wordOfBytes_toNat]
  have := w.isLt
  simp only [BitVec.extractLsb'_toNat, Nat.shiftRight_eq_div_pow]; omega

/-! ### The masks of the opcode map -/

theorem and_hi_toNat : (w &&& 0xF000#16).toNat = w.toNat / 4096 * 4096 := by
  have h : w &&& 0xF000#16 = (w >>> 12) <<< 12 := by
    ext i hi
    interval_cases i <;> simp
  have := w.isLt
  rw [h, BitVec.toNat_shiftLeft, BitVec.toNat_ushiftRight, Nat.shiftRight_eq_div_pow, Nat.shiftLeft_eq]
  omega

theorem and_lo_toNat : (w &&& 0x000F#16).toNat = w.toNat % 16 := by
  rw [BitVec.toNat_and]; exact Nat.and_two_pow_sub_one_eq_mod w.toNat 4

theorem and_byte_toNat : (w &&& 0x00FF#16).toNat = w.toNat % 256 := by
  rw [BitVec.toNat_and]; exact Nat.and_two_pow_sub_one_eq_mod w.toNat 8

/-- A mask of the high nibble and of bits below 12 takes the two parts apart. -/
theorem and_hi_or_toNat (m : Word) (hm : (w &&& m).toNat < 2 ^ 12) :
    (w &&& (0xF000#16 ||| m)).toNat = w.toNat / 4096 * 4096 + (w &&& m).toNat := by
  have h : (w &&& 0xF000#16).toNat = (w.toNat / 4096) <<< 12 := by rw [and_hi_toNat, Nat.shiftLeft_eq]
  rw [BitVec.and_or_distrib_left, BitVec.toNat_or, h, ← Nat.shiftLeft_add_eq_or_of_lt hm, Nat.shiftLeft_eq]

theorem and_F00F_toNat : (w &&& 0xF00F#16).toNat = w.toNat / 4096 * 4096 + w.toNat % 16 := by
  have := and_hi_or_toNat w 0x000F#16 (by rw [and_lo_toNat]; omega)
  rwa [and_lo_toNat] at this

theorem and_F0FF_toNat : (w &&& 0xF0FF#16).toNat = w.toNat / 4096 * 4096 + w.toNat % 256 := by
  have := and_hi_or_toNat w 0x00FF#16 (by rw [and_byte_toNat]; omega)
  rwa [and_byte_toNat] at this

theorem and_FFFF_toNat : (w &&& 0xFFFF#16).toNat = w.toNat := by
  rw [show (0xFFFF#16) = BitVec.allOnes 16 from rfl, BitVec.and_allOnes]

/-! ### The rows of the opcode map as arithmetic -/

theorem accepts_F000 (v : Word) : (Pattern.mk 0xF000 v).accepts w = true ↔ w.toNat / 4096 * 4096 = v.toNat := by
  rw [Pattern.accepts, beq_iff_eq, ← BitVec.toNat_inj, ← and_hi_toNat w]; rfl

theorem accepts_F00F (v : Word) :
    (Pattern.mk 0xF00F v).accepts w = true ↔ w.toNat / 4096 * 4096 + w.toNat % 16 = v.toNat := by
  rw [Pattern.accepts, beq_iff_eq, ← BitVec.toNat_inj, ← and_F00F_toNat w]; rfl

theorem accepts_F0FF (v : Word) :
    (Pattern.mk 0xF0FF v).accepts w = true ↔ w.toNat / 4096 * 4096 + w.toNat % 256 = v.toNat := by
  rw [Pattern.accepts, beq_iff_eq, ← BitVec.toNat_inj, ← and_F0FF_toNat w]; rfl

theorem accepts_FFFF (v : Word) : (Pattern.mk 0xFFFF v).accepts w = true ↔ w.toNat = v.toNat := by
  rw [Pattern.accepts, beq_iff_eq, ← BitVec.toNat_inj, ← and_FFFF_toNat w]; rfl

/-- A word is recognised when one of the 34 rows accepts it (R45). -/
theorem recognised_iff : recognised w = true ↔ ∃ p ∈ patterns, p.accepts w = true := List.any_eq_true

end Sys2Proof
end

