-- ==== Sys2Proof/Laws/Memory.lean ====
section
/-! SUPPORT. The laws of the memory array: a read after a write, and that a write keeps the canonical form. -/

namespace Sys2Proof.Memory

variable (c : Config)

theorem wf_nil : Memory.wf c [] := by simp [Memory.wf]

theorem wf_tail {p : Host.Cell} {m : List Host.Cell} (h : Memory.wf c (p :: m)) : Memory.wf c m := by
  obtain ⟨h1, h2⟩ := h
  exact ⟨(List.pairwise_cons.mp h1).2, fun q hq => h2 q (List.mem_cons_of_mem _ hq)⟩

/-- In a canonical memory the first cell's address is below every other listed one. -/
theorem lt_of_mem_tail {k : Nat} {d : Byte} {m : List Host.Cell} (h : Memory.wf c ((k, d) :: m)) :
    ∀ q ∈ m, k < q.1 := fun q hq =>
  (List.pairwise_cons.mp h.1).1 q.1 (List.mem_map_of_mem hq)

/-- An address that no cell lists reads as the reset contents. -/
theorem read_unlisted {m : List Host.Cell} {a : Nat} (h : ∀ q ∈ m, q.1 ≠ a) :
    Memory.read c m a = c.resetByte a := by
  induction m with
  | nil => rfl
  | cons p m ih =>
    have hp : p.1 ≠ a := h p (by simp)
    simp only [Memory.read, hp, ↓reduceIte]
    exact ih fun q hq => h q (List.mem_cons_of_mem _ hq)

theorem read_listed (m : List Host.Cell) (a b : Nat) (d : Byte) (hne : a ≠ b) :
    Memory.read c (Memory.listed c a d m) b = Memory.read c m b := by
  unfold Memory.listed
  split
  · rfl
  · simp [Memory.read, hne]

/-- A write leaves every other address as it was. -/
theorem read_write_other (m : List Host.Cell) {a b : Nat} (d : Byte) (hne : a ≠ b) :
    Memory.read c (Memory.write c m a d) b = Memory.read c m b := by
  induction m with
  | nil => exact read_listed c [] a b d hne
  | cons p m ih =>
    obtain ⟨k, e⟩ := p
    simp only [Memory.write]
    split
    · simp only [Memory.read, ih]
    · split
      · rename_i _ hk
        rw [read_listed c m a b d hne, Memory.read, if_neg (hk ▸ hne)]
      · exact read_listed c _ a b d hne

/-- Listing a cell in front of cells with other addresses makes the address read as the byte. -/
theorem read_listed_same {m : List Host.Cell} {a : Nat} (d : Byte) (h : ∀ q ∈ m, q.1 ≠ a) :
    Memory.read c (Memory.listed c a d m) a = d := by
  unfold Memory.listed
  split
  · rename_i hd
    rw [read_unlisted c h, hd]
  · simp [Memory.read]

/-- A read after a write to the same address gives the byte written. -/
theorem read_write_same {m : List Host.Cell} (h : Memory.wf c m) (a : Nat) (d : Byte) :
    Memory.read c (Memory.write c m a d) a = d := by
  induction m with
  | nil => exact read_listed_same c d (by simp)
  | cons p m ih =>
    obtain ⟨k, e⟩ := p
    have htail := lt_of_mem_tail c h
    simp only [Memory.write]
    split
    · rename_i hk
      rw [Memory.read, if_neg (Nat.ne_of_lt hk)]
      exact ih (wf_tail c h)
    · rename_i hk
      split
      · rename_i hka
        exact read_listed_same c d fun q hq => by have := htail q hq; omega
      · rename_i hka
        refine read_listed_same c d fun q hq => ?_
        rcases List.mem_cons.mp hq with rfl | hq
        · exact hka
        · have := htail q hq; omega

/-- The addresses a write lists are the old ones and the one written. -/
theorem mem_write {m : List Host.Cell} {a : Nat} {d : Byte} {q : Host.Cell}
    (hq : q ∈ Memory.write c m a d) : q ∈ m ∨ (q = (a, d) ∧ d ≠ c.resetByte a) := by
  have listed : ∀ l, q ∈ Memory.listed c a d l → q ∈ l ∨ (q = (a, d) ∧ d ≠ c.resetByte a) := by
    intro l hl
    unfold Memory.listed at hl
    split at hl
    · exact .inl hl
    · rename_i hd
      exact (List.mem_cons.mp hl).elim (fun h => .inr ⟨h, hd⟩) .inl
  induction m with
  | nil => exact listed [] hq
  | cons p m ih =>
    obtain ⟨k, e⟩ := p
    simp only [Memory.write] at hq
    split at hq
    · rcases List.mem_cons.mp hq with h | h
      · exact .inl (h ▸ List.mem_cons_self)
      · exact (ih h).imp_left (List.mem_cons_of_mem _)
    · split at hq
      · exact (listed m hq).imp_left (List.mem_cons_of_mem _)
      · exact listed _ hq

theorem wf_listed {m : List Host.Cell} (h : Memory.wf c m) {a : Nat} (ha : a < 4096) (d : Byte)
    (hlt : ∀ q ∈ m, a < q.1) : Memory.wf c (Memory.listed c a d m) := by
  unfold Memory.listed
  split
  · exact h
  · rename_i hd
    refine ⟨?_, ?_⟩
    · rw [List.map_cons, List.pairwise_cons]
      refine ⟨?_, h.1⟩
      intro k hk
      obtain ⟨q, hq, rfl⟩ := List.mem_map.mp hk
      exact hlt q hq
    · intro q hq
      rcases List.mem_cons.mp hq with rfl | hq
      · exact ⟨ha, hd⟩
      · exact h.2 q hq

/-- A write below 4096 keeps the canonical form. -/
theorem wf_write {m : List Host.Cell} (h : Memory.wf c m) {a : Nat} (ha : a < 4096) (d : Byte) :
    Memory.wf c (Memory.write c m a d) := by
  induction m with
  | nil => exact wf_listed c h ha d (by simp)
  | cons p m ih =>
    obtain ⟨k, e⟩ := p
    have htail := lt_of_mem_tail c h
    simp only [Memory.write]
    split
    · rename_i hk
      have hw := ih (wf_tail c h)
      refine ⟨?_, ?_⟩
      · rw [List.map_cons, List.pairwise_cons]
        refine ⟨?_, hw.1⟩
        intro j hj
        obtain ⟨q, hq, rfl⟩ := List.mem_map.mp hj
        rcases mem_write c hq with hq | ⟨rfl, -⟩
        · exact htail q hq
        · exact hk
      · intro q hq
        rcases List.mem_cons.mp hq with rfl | hq
        · exact h.2 _ List.mem_cons_self
        · exact hw.2 q hq
    · split
      · rename_i hka
        exact wf_listed c (wf_tail c h) ha d fun q hq => hka ▸ htail q hq
      · refine wf_listed c h ha d fun q hq => ?_
        rcases List.mem_cons.mp hq with rfl | hq
        · show a < k; omega
        · have := htail q hq; omega

end Sys2Proof.Memory
end

