-- ==== Sys2Proof/Laws/State.lean ====
section
/-! SUPPORT. One lemma per field per update of the state, so that no proof unfolds a record update; and one per
accessor per update that leaves what the accessor reads alone. -/

namespace Sys2Proof.Machine

variable (s : State)

/-! ### setReg -/

@[simp] theorem State.setReg_v (x : Reg) (b : Byte) : (s.setReg x b).v = s.v.set x.toNat b x.isLt := rfl
@[simp] theorem State.setReg_i (x : Reg) (b : Byte) : (s.setReg x b).i = s.i := rfl
@[simp] theorem State.setReg_pc (x : Reg) (b : Byte) : (s.setReg x b).pc = s.pc := rfl
@[simp] theorem State.setReg_stack (x : Reg) (b : Byte) : (s.setReg x b).stack = s.stack := rfl
@[simp] theorem State.setReg_dt (x : Reg) (b : Byte) : (s.setReg x b).dt = s.dt := rfl
@[simp] theorem State.setReg_st (x : Reg) (b : Byte) : (s.setReg x b).st = s.st := rfl
@[simp] theorem State.setReg_mem (x : Reg) (b : Byte) : (s.setReg x b).mem = s.mem := rfl
@[simp] theorem State.setReg_fb (x : Reg) (b : Byte) : (s.setReg x b).fb = s.fb := rfl
@[simp] theorem State.setReg_key (x : Reg) (b : Byte) : (s.setReg x b).key = s.key := rfl
@[simp] theorem State.setReg_wait (x : Reg) (b : Byte) : (s.setReg x b).wait = s.wait := rfl
@[simp] theorem State.setReg_status (x : Reg) (b : Byte) : (s.setReg x b).status = s.status := rfl
@[simp] theorem State.setReg_cfg (x : Reg) (b : Byte) : (s.setReg x b).cfg = s.cfg := rfl
@[simp] theorem State.setReg_draws (x : Reg) (b : Byte) : (s.setReg x b).draws = s.draws := rfl
@[simp] theorem State.setReg_memRead (x : Reg) (b : Byte) (d : Nat) : (s.setReg x b).memRead d = s.memRead d := rfl
@[simp] theorem State.setReg_keyAt (x : Reg) (b : Byte) (j : Nibble) : (s.setReg x b).keyAt j = s.keyAt j := rfl
@[simp] theorem State.setReg_keyPressed (x : Reg) (b : Byte) (d : Byte) : (s.setReg x b).keyPressed d = s.keyPressed d := rfl

/-! ### setI -/

@[simp] theorem State.setI_v (n : Nat) : (s.setI n).v = s.v := rfl
@[simp] theorem State.setI_i (n : Nat) : (s.setI n).i = addr16 n := rfl
@[simp] theorem State.setI_pc (n : Nat) : (s.setI n).pc = s.pc := rfl
@[simp] theorem State.setI_stack (n : Nat) : (s.setI n).stack = s.stack := rfl
@[simp] theorem State.setI_dt (n : Nat) : (s.setI n).dt = s.dt := rfl
@[simp] theorem State.setI_st (n : Nat) : (s.setI n).st = s.st := rfl
@[simp] theorem State.setI_mem (n : Nat) : (s.setI n).mem = s.mem := rfl
@[simp] theorem State.setI_fb (n : Nat) : (s.setI n).fb = s.fb := rfl
@[simp] theorem State.setI_key (n : Nat) : (s.setI n).key = s.key := rfl
@[simp] theorem State.setI_wait (n : Nat) : (s.setI n).wait = s.wait := rfl
@[simp] theorem State.setI_status (n : Nat) : (s.setI n).status = s.status := rfl
@[simp] theorem State.setI_cfg (n : Nat) : (s.setI n).cfg = s.cfg := rfl
@[simp] theorem State.setI_draws (n : Nat) : (s.setI n).draws = s.draws := rfl
@[simp] theorem State.setI_reg (n : Nat) (r : Reg) : (s.setI n).reg r = s.reg r := rfl
@[simp] theorem State.setI_memRead (n : Nat) (d : Nat) : (s.setI n).memRead d = s.memRead d := rfl
@[simp] theorem State.setI_keyAt (n : Nat) (j : Nibble) : (s.setI n).keyAt j = s.keyAt j := rfl
@[simp] theorem State.setI_keyPressed (n : Nat) (d : Byte) : (s.setI n).keyPressed d = s.keyPressed d := rfl

/-! ### setDt -/

@[simp] theorem State.setDt_v (b : Byte) : (s.setDt b).v = s.v := rfl
@[simp] theorem State.setDt_i (b : Byte) : (s.setDt b).i = s.i := rfl
@[simp] theorem State.setDt_pc (b : Byte) : (s.setDt b).pc = s.pc := rfl
@[simp] theorem State.setDt_stack (b : Byte) : (s.setDt b).stack = s.stack := rfl
@[simp] theorem State.setDt_dt (b : Byte) : (s.setDt b).dt = b := rfl
@[simp] theorem State.setDt_st (b : Byte) : (s.setDt b).st = s.st := rfl
@[simp] theorem State.setDt_mem (b : Byte) : (s.setDt b).mem = s.mem := rfl
@[simp] theorem State.setDt_fb (b : Byte) : (s.setDt b).fb = s.fb := rfl
@[simp] theorem State.setDt_key (b : Byte) : (s.setDt b).key = s.key := rfl
@[simp] theorem State.setDt_wait (b : Byte) : (s.setDt b).wait = s.wait := rfl
@[simp] theorem State.setDt_status (b : Byte) : (s.setDt b).status = s.status := rfl
@[simp] theorem State.setDt_cfg (b : Byte) : (s.setDt b).cfg = s.cfg := rfl
@[simp] theorem State.setDt_draws (b : Byte) : (s.setDt b).draws = s.draws := rfl
@[simp] theorem State.setDt_reg (b : Byte) (r : Reg) : (s.setDt b).reg r = s.reg r := rfl
@[simp] theorem State.setDt_memRead (b : Byte) (d : Nat) : (s.setDt b).memRead d = s.memRead d := rfl
@[simp] theorem State.setDt_keyAt (b : Byte) (j : Nibble) : (s.setDt b).keyAt j = s.keyAt j := rfl
@[simp] theorem State.setDt_keyPressed (b : Byte) (d : Byte) : (s.setDt b).keyPressed d = s.keyPressed d := rfl

/-! ### setSt -/

@[simp] theorem State.setSt_v (b : Byte) : (s.setSt b).v = s.v := rfl
@[simp] theorem State.setSt_i (b : Byte) : (s.setSt b).i = s.i := rfl
@[simp] theorem State.setSt_pc (b : Byte) : (s.setSt b).pc = s.pc := rfl
@[simp] theorem State.setSt_stack (b : Byte) : (s.setSt b).stack = s.stack := rfl
@[simp] theorem State.setSt_dt (b : Byte) : (s.setSt b).dt = s.dt := rfl
@[simp] theorem State.setSt_st (b : Byte) : (s.setSt b).st = b := rfl
@[simp] theorem State.setSt_mem (b : Byte) : (s.setSt b).mem = s.mem := rfl
@[simp] theorem State.setSt_fb (b : Byte) : (s.setSt b).fb = s.fb := rfl
@[simp] theorem State.setSt_key (b : Byte) : (s.setSt b).key = s.key := rfl
@[simp] theorem State.setSt_wait (b : Byte) : (s.setSt b).wait = s.wait := rfl
@[simp] theorem State.setSt_status (b : Byte) : (s.setSt b).status = s.status := rfl
@[simp] theorem State.setSt_cfg (b : Byte) : (s.setSt b).cfg = s.cfg := rfl
@[simp] theorem State.setSt_draws (b : Byte) : (s.setSt b).draws = s.draws := rfl
@[simp] theorem State.setSt_reg (b : Byte) (r : Reg) : (s.setSt b).reg r = s.reg r := rfl
@[simp] theorem State.setSt_memRead (b : Byte) (d : Nat) : (s.setSt b).memRead d = s.memRead d := rfl
@[simp] theorem State.setSt_keyAt (b : Byte) (j : Nibble) : (s.setSt b).keyAt j = s.keyAt j := rfl
@[simp] theorem State.setSt_keyPressed (b : Byte) (d : Byte) : (s.setSt b).keyPressed d = s.keyPressed d := rfl

/-! ### setWait -/

@[simp] theorem State.setWait_v (w : Option Awaiting) : (s.setWait w).v = s.v := rfl
@[simp] theorem State.setWait_i (w : Option Awaiting) : (s.setWait w).i = s.i := rfl
@[simp] theorem State.setWait_pc (w : Option Awaiting) : (s.setWait w).pc = s.pc := rfl
@[simp] theorem State.setWait_stack (w : Option Awaiting) : (s.setWait w).stack = s.stack := rfl
@[simp] theorem State.setWait_dt (w : Option Awaiting) : (s.setWait w).dt = s.dt := rfl
@[simp] theorem State.setWait_st (w : Option Awaiting) : (s.setWait w).st = s.st := rfl
@[simp] theorem State.setWait_mem (w : Option Awaiting) : (s.setWait w).mem = s.mem := rfl
@[simp] theorem State.setWait_fb (w : Option Awaiting) : (s.setWait w).fb = s.fb := rfl
@[simp] theorem State.setWait_key (w : Option Awaiting) : (s.setWait w).key = s.key := rfl
@[simp] theorem State.setWait_wait (w : Option Awaiting) : (s.setWait w).wait = w := rfl
@[simp] theorem State.setWait_status (w : Option Awaiting) : (s.setWait w).status = s.status := rfl
@[simp] theorem State.setWait_cfg (w : Option Awaiting) : (s.setWait w).cfg = s.cfg := rfl
@[simp] theorem State.setWait_draws (w : Option Awaiting) : (s.setWait w).draws = s.draws := rfl
@[simp] theorem State.setWait_reg (w : Option Awaiting) (r : Reg) : (s.setWait w).reg r = s.reg r := rfl
@[simp] theorem State.setWait_memRead (w : Option Awaiting) (d : Nat) : (s.setWait w).memRead d = s.memRead d := rfl
@[simp] theorem State.setWait_keyAt (w : Option Awaiting) (j : Nibble) : (s.setWait w).keyAt j = s.keyAt j := rfl
@[simp] theorem State.setWait_keyPressed (w : Option Awaiting) (d : Byte) : (s.setWait w).keyPressed d = s.keyPressed d := rfl

/-! ### countDraw -/

@[simp] theorem State.countDraw_v : (s.countDraw).v = s.v := rfl
@[simp] theorem State.countDraw_i : (s.countDraw).i = s.i := rfl
@[simp] theorem State.countDraw_pc : (s.countDraw).pc = s.pc := rfl
@[simp] theorem State.countDraw_stack : (s.countDraw).stack = s.stack := rfl
@[simp] theorem State.countDraw_dt : (s.countDraw).dt = s.dt := rfl
@[simp] theorem State.countDraw_st : (s.countDraw).st = s.st := rfl
@[simp] theorem State.countDraw_mem : (s.countDraw).mem = s.mem := rfl
@[simp] theorem State.countDraw_fb : (s.countDraw).fb = s.fb := rfl
@[simp] theorem State.countDraw_key : (s.countDraw).key = s.key := rfl
@[simp] theorem State.countDraw_wait : (s.countDraw).wait = s.wait := rfl
@[simp] theorem State.countDraw_status : (s.countDraw).status = s.status := rfl
@[simp] theorem State.countDraw_cfg : (s.countDraw).cfg = s.cfg := rfl
@[simp] theorem State.countDraw_draws : (s.countDraw).draws = s.draws + 1 := rfl
@[simp] theorem State.countDraw_reg (r : Reg) : (s.countDraw).reg r = s.reg r := rfl
@[simp] theorem State.countDraw_memRead  (d : Nat) : (s.countDraw).memRead d = s.memRead d := rfl
@[simp] theorem State.countDraw_keyAt  (j : Nibble) : (s.countDraw).keyAt j = s.keyAt j := rfl
@[simp] theorem State.countDraw_keyPressed  (d : Byte) : (s.countDraw).keyPressed d = s.keyPressed d := rfl

/-! ### setFb -/

@[simp] theorem State.setFb_v (fb : Framebuffer) : (s.setFb fb).v = s.v := rfl
@[simp] theorem State.setFb_i (fb : Framebuffer) : (s.setFb fb).i = s.i := rfl
@[simp] theorem State.setFb_pc (fb : Framebuffer) : (s.setFb fb).pc = s.pc := rfl
@[simp] theorem State.setFb_stack (fb : Framebuffer) : (s.setFb fb).stack = s.stack := rfl
@[simp] theorem State.setFb_dt (fb : Framebuffer) : (s.setFb fb).dt = s.dt := rfl
@[simp] theorem State.setFb_st (fb : Framebuffer) : (s.setFb fb).st = s.st := rfl
@[simp] theorem State.setFb_mem (fb : Framebuffer) : (s.setFb fb).mem = s.mem := rfl
@[simp] theorem State.setFb_fb (fb : Framebuffer) : (s.setFb fb).fb = fb := rfl
@[simp] theorem State.setFb_key (fb : Framebuffer) : (s.setFb fb).key = s.key := rfl
@[simp] theorem State.setFb_wait (fb : Framebuffer) : (s.setFb fb).wait = s.wait := rfl
@[simp] theorem State.setFb_status (fb : Framebuffer) : (s.setFb fb).status = s.status := rfl
@[simp] theorem State.setFb_cfg (fb : Framebuffer) : (s.setFb fb).cfg = s.cfg := rfl
@[simp] theorem State.setFb_draws (fb : Framebuffer) : (s.setFb fb).draws = s.draws := rfl
@[simp] theorem State.setFb_reg (fb : Framebuffer) (r : Reg) : (s.setFb fb).reg r = s.reg r := rfl
@[simp] theorem State.setFb_memRead (fb : Framebuffer) (d : Nat) : (s.setFb fb).memRead d = s.memRead d := rfl
@[simp] theorem State.setFb_keyAt (fb : Framebuffer) (j : Nibble) : (s.setFb fb).keyAt j = s.keyAt j := rfl
@[simp] theorem State.setFb_keyPressed (fb : Framebuffer) (d : Byte) : (s.setFb fb).keyPressed d = s.keyPressed d := rfl

/-! ### memWrite -/

@[simp] theorem State.memWrite_v (a : Nat) (b : Byte) : (s.memWrite a b).v = s.v := rfl
@[simp] theorem State.memWrite_i (a : Nat) (b : Byte) : (s.memWrite a b).i = s.i := rfl
@[simp] theorem State.memWrite_pc (a : Nat) (b : Byte) : (s.memWrite a b).pc = s.pc := rfl
@[simp] theorem State.memWrite_stack (a : Nat) (b : Byte) : (s.memWrite a b).stack = s.stack := rfl
@[simp] theorem State.memWrite_dt (a : Nat) (b : Byte) : (s.memWrite a b).dt = s.dt := rfl
@[simp] theorem State.memWrite_st (a : Nat) (b : Byte) : (s.memWrite a b).st = s.st := rfl
@[simp] theorem State.memWrite_mem (a : Nat) (b : Byte) : (s.memWrite a b).mem = Memory.write s.cfg s.mem (mask12 a) b := rfl
@[simp] theorem State.memWrite_fb (a : Nat) (b : Byte) : (s.memWrite a b).fb = s.fb := rfl
@[simp] theorem State.memWrite_key (a : Nat) (b : Byte) : (s.memWrite a b).key = s.key := rfl
@[simp] theorem State.memWrite_wait (a : Nat) (b : Byte) : (s.memWrite a b).wait = s.wait := rfl
@[simp] theorem State.memWrite_status (a : Nat) (b : Byte) : (s.memWrite a b).status = s.status := rfl
@[simp] theorem State.memWrite_cfg (a : Nat) (b : Byte) : (s.memWrite a b).cfg = s.cfg := rfl
@[simp] theorem State.memWrite_draws (a : Nat) (b : Byte) : (s.memWrite a b).draws = s.draws := rfl
@[simp] theorem State.memWrite_reg (a : Nat) (b : Byte) (r : Reg) : (s.memWrite a b).reg r = s.reg r := rfl
@[simp] theorem State.memWrite_keyAt (a : Nat) (b : Byte) (j : Nibble) : (s.memWrite a b).keyAt j = s.keyAt j := rfl
@[simp] theorem State.memWrite_keyPressed (a : Nat) (b : Byte) (d : Byte) : (s.memWrite a b).keyPressed d = s.keyPressed d := rfl

/-! ### advance -/

@[simp] theorem State.advance_v (k : Seq) : (s.advance k).v = s.v := rfl
@[simp] theorem State.advance_i (k : Seq) : (s.advance k).i = s.i := rfl
@[simp] theorem State.advance_pc (k : Seq) : (s.advance k).pc = nextPc k s.pc := rfl
@[simp] theorem State.advance_stack (k : Seq) : (s.advance k).stack = s.stack := rfl
@[simp] theorem State.advance_dt (k : Seq) : (s.advance k).dt = s.dt := rfl
@[simp] theorem State.advance_st (k : Seq) : (s.advance k).st = s.st := rfl
@[simp] theorem State.advance_mem (k : Seq) : (s.advance k).mem = s.mem := rfl
@[simp] theorem State.advance_fb (k : Seq) : (s.advance k).fb = s.fb := rfl
@[simp] theorem State.advance_key (k : Seq) : (s.advance k).key = s.key := rfl
@[simp] theorem State.advance_wait (k : Seq) : (s.advance k).wait = s.wait := rfl
@[simp] theorem State.advance_status (k : Seq) : (s.advance k).status = s.status := rfl
@[simp] theorem State.advance_cfg (k : Seq) : (s.advance k).cfg = s.cfg := rfl
@[simp] theorem State.advance_draws (k : Seq) : (s.advance k).draws = s.draws := rfl
@[simp] theorem State.advance_reg (k : Seq) (r : Reg) : (s.advance k).reg r = s.reg r := rfl
@[simp] theorem State.advance_memRead (k : Seq) (d : Nat) : (s.advance k).memRead d = s.memRead d := rfl
@[simp] theorem State.advance_keyAt (k : Seq) (j : Nibble) : (s.advance k).keyAt j = s.keyAt j := rfl
@[simp] theorem State.advance_keyPressed (k : Seq) (d : Byte) : (s.advance k).keyPressed d = s.keyPressed d := rfl

/-! ### loadRegs -/

@[simp] theorem State.loadRegs_i (a : Nat) (x : Reg) : (s.loadRegs a x).i = s.i := rfl
@[simp] theorem State.loadRegs_pc (a : Nat) (x : Reg) : (s.loadRegs a x).pc = s.pc := rfl
@[simp] theorem State.loadRegs_stack (a : Nat) (x : Reg) : (s.loadRegs a x).stack = s.stack := rfl
@[simp] theorem State.loadRegs_dt (a : Nat) (x : Reg) : (s.loadRegs a x).dt = s.dt := rfl
@[simp] theorem State.loadRegs_st (a : Nat) (x : Reg) : (s.loadRegs a x).st = s.st := rfl
@[simp] theorem State.loadRegs_mem (a : Nat) (x : Reg) : (s.loadRegs a x).mem = s.mem := rfl
@[simp] theorem State.loadRegs_fb (a : Nat) (x : Reg) : (s.loadRegs a x).fb = s.fb := rfl
@[simp] theorem State.loadRegs_key (a : Nat) (x : Reg) : (s.loadRegs a x).key = s.key := rfl
@[simp] theorem State.loadRegs_wait (a : Nat) (x : Reg) : (s.loadRegs a x).wait = s.wait := rfl
@[simp] theorem State.loadRegs_status (a : Nat) (x : Reg) : (s.loadRegs a x).status = s.status := rfl
@[simp] theorem State.loadRegs_cfg (a : Nat) (x : Reg) : (s.loadRegs a x).cfg = s.cfg := rfl
@[simp] theorem State.loadRegs_draws (a : Nat) (x : Reg) : (s.loadRegs a x).draws = s.draws := rfl
@[simp] theorem State.loadRegs_memRead (a : Nat) (x : Reg) (d : Nat) : (s.loadRegs a x).memRead d = s.memRead d := rfl
@[simp] theorem State.loadRegs_keyAt (a : Nat) (x : Reg) (j : Nibble) : (s.loadRegs a x).keyAt j = s.keyAt j := rfl
@[simp] theorem State.loadRegs_keyPressed (a : Nat) (x : Reg) (d : Byte) : (s.loadRegs a x).keyPressed d = s.keyPressed d := rfl

/-! ### setResultAndFlag -/

@[simp] theorem State.setResultAndFlag_i (x : Reg) (res f : Byte) : (s.setResultAndFlag x res f).i = s.i := rfl
@[simp] theorem State.setResultAndFlag_pc (x : Reg) (res f : Byte) : (s.setResultAndFlag x res f).pc = s.pc := rfl
@[simp] theorem State.setResultAndFlag_stack (x : Reg) (res f : Byte) : (s.setResultAndFlag x res f).stack = s.stack := rfl
@[simp] theorem State.setResultAndFlag_dt (x : Reg) (res f : Byte) : (s.setResultAndFlag x res f).dt = s.dt := rfl
@[simp] theorem State.setResultAndFlag_st (x : Reg) (res f : Byte) : (s.setResultAndFlag x res f).st = s.st := rfl
@[simp] theorem State.setResultAndFlag_mem (x : Reg) (res f : Byte) : (s.setResultAndFlag x res f).mem = s.mem := rfl
@[simp] theorem State.setResultAndFlag_fb (x : Reg) (res f : Byte) : (s.setResultAndFlag x res f).fb = s.fb := rfl
@[simp] theorem State.setResultAndFlag_key (x : Reg) (res f : Byte) : (s.setResultAndFlag x res f).key = s.key := rfl
@[simp] theorem State.setResultAndFlag_wait (x : Reg) (res f : Byte) : (s.setResultAndFlag x res f).wait = s.wait := rfl
@[simp] theorem State.setResultAndFlag_status (x : Reg) (res f : Byte) : (s.setResultAndFlag x res f).status = s.status := rfl
@[simp] theorem State.setResultAndFlag_cfg (x : Reg) (res f : Byte) : (s.setResultAndFlag x res f).cfg = s.cfg := rfl
@[simp] theorem State.setResultAndFlag_draws (x : Reg) (res f : Byte) : (s.setResultAndFlag x res f).draws = s.draws := rfl
@[simp] theorem State.setResultAndFlag_memRead (x : Reg) (res f : Byte) (d : Nat) : (s.setResultAndFlag x res f).memRead d = s.memRead d := rfl
@[simp] theorem State.setResultAndFlag_keyAt (x : Reg) (res f : Byte) (j : Nibble) : (s.setResultAndFlag x res f).keyAt j = s.keyAt j := rfl
@[simp] theorem State.setResultAndFlag_keyPressed (x : Reg) (res f : Byte) (d : Byte) : (s.setResultAndFlag x res f).keyPressed d = s.keyPressed d := rfl

/-! ### memWriteBytes and blockIndexUpdate: memory and I alone -/

@[simp] theorem State.memWriteBytes_nil (a : Nat) : s.memWriteBytes a [] = s := rfl

@[simp] theorem State.memWriteBytes_cons (a : Nat) (b : Byte) (bs : List Byte) :
    s.memWriteBytes a (b :: bs) = (s.memWrite a b).memWriteBytes (a + 1) bs := rfl

/-- Writing bytes changes memory and nothing else. -/
theorem State.memWriteBytes_eq (a : Nat) (bs : List Byte) :
    ∃ m, s.memWriteBytes a bs = { s with mem := m } := by
  induction bs generalizing s a with
  | nil => exact ⟨s.mem, rfl⟩
  | cons b bs ih =>
    obtain ⟨m, h⟩ := ih (s.memWrite a b) (a + 1)
    exact ⟨m, h⟩

@[simp] theorem State.memWriteBytes_v (a : Nat) (bs : List Byte) : (s.memWriteBytes a bs).v = s.v := by
  obtain ⟨m, h⟩ := s.memWriteBytes_eq a bs; rw [h]
@[simp] theorem State.memWriteBytes_i (a : Nat) (bs : List Byte) : (s.memWriteBytes a bs).i = s.i := by
  obtain ⟨m, h⟩ := s.memWriteBytes_eq a bs; rw [h]
@[simp] theorem State.memWriteBytes_pc (a : Nat) (bs : List Byte) : (s.memWriteBytes a bs).pc = s.pc := by
  obtain ⟨m, h⟩ := s.memWriteBytes_eq a bs; rw [h]
@[simp] theorem State.memWriteBytes_stack (a : Nat) (bs : List Byte) : (s.memWriteBytes a bs).stack = s.stack := by
  obtain ⟨m, h⟩ := s.memWriteBytes_eq a bs; rw [h]
@[simp] theorem State.memWriteBytes_dt (a : Nat) (bs : List Byte) : (s.memWriteBytes a bs).dt = s.dt := by
  obtain ⟨m, h⟩ := s.memWriteBytes_eq a bs; rw [h]
@[simp] theorem State.memWriteBytes_st (a : Nat) (bs : List Byte) : (s.memWriteBytes a bs).st = s.st := by
  obtain ⟨m, h⟩ := s.memWriteBytes_eq a bs; rw [h]
@[simp] theorem State.memWriteBytes_fb (a : Nat) (bs : List Byte) : (s.memWriteBytes a bs).fb = s.fb := by
  obtain ⟨m, h⟩ := s.memWriteBytes_eq a bs; rw [h]
@[simp] theorem State.memWriteBytes_key (a : Nat) (bs : List Byte) : (s.memWriteBytes a bs).key = s.key := by
  obtain ⟨m, h⟩ := s.memWriteBytes_eq a bs; rw [h]
@[simp] theorem State.memWriteBytes_wait (a : Nat) (bs : List Byte) : (s.memWriteBytes a bs).wait = s.wait := by
  obtain ⟨m, h⟩ := s.memWriteBytes_eq a bs; rw [h]
@[simp] theorem State.memWriteBytes_status (a : Nat) (bs : List Byte) : (s.memWriteBytes a bs).status = s.status := by
  obtain ⟨m, h⟩ := s.memWriteBytes_eq a bs; rw [h]
@[simp] theorem State.memWriteBytes_cfg (a : Nat) (bs : List Byte) : (s.memWriteBytes a bs).cfg = s.cfg := by
  obtain ⟨m, h⟩ := s.memWriteBytes_eq a bs; rw [h]
@[simp] theorem State.memWriteBytes_draws (a : Nat) (bs : List Byte) : (s.memWriteBytes a bs).draws = s.draws := by
  obtain ⟨m, h⟩ := s.memWriteBytes_eq a bs; rw [h]
@[simp] theorem State.memWriteBytes_reg (a : Nat) (bs : List Byte) (r : Reg) : (s.memWriteBytes a bs).reg r = s.reg r := by
  obtain ⟨m, h⟩ := s.memWriteBytes_eq a bs; rw [h]; rfl

/-- The index update writes I in the compatibility mode and nothing otherwise. -/
theorem State.blockIndexUpdate_eq (x : Reg) :
    s.blockIndexUpdate x = if s.cfg.blockIndexIncrement then s.setI (s.i.toNat + x.toNat + 1) else s := rfl

@[simp] theorem State.blockIndexUpdate_v (x : Reg) : (s.blockIndexUpdate x).v = s.v := by
  rw [s.blockIndexUpdate_eq]; split <;> rfl
@[simp] theorem State.blockIndexUpdate_pc (x : Reg) : (s.blockIndexUpdate x).pc = s.pc := by
  rw [s.blockIndexUpdate_eq]; split <;> rfl
@[simp] theorem State.blockIndexUpdate_stack (x : Reg) : (s.blockIndexUpdate x).stack = s.stack := by
  rw [s.blockIndexUpdate_eq]; split <;> rfl
@[simp] theorem State.blockIndexUpdate_dt (x : Reg) : (s.blockIndexUpdate x).dt = s.dt := by
  rw [s.blockIndexUpdate_eq]; split <;> rfl
@[simp] theorem State.blockIndexUpdate_st (x : Reg) : (s.blockIndexUpdate x).st = s.st := by
  rw [s.blockIndexUpdate_eq]; split <;> rfl
@[simp] theorem State.blockIndexUpdate_mem (x : Reg) : (s.blockIndexUpdate x).mem = s.mem := by
  rw [s.blockIndexUpdate_eq]; split <;> rfl
@[simp] theorem State.blockIndexUpdate_fb (x : Reg) : (s.blockIndexUpdate x).fb = s.fb := by
  rw [s.blockIndexUpdate_eq]; split <;> rfl
@[simp] theorem State.blockIndexUpdate_key (x : Reg) : (s.blockIndexUpdate x).key = s.key := by
  rw [s.blockIndexUpdate_eq]; split <;> rfl
@[simp] theorem State.blockIndexUpdate_wait (x : Reg) : (s.blockIndexUpdate x).wait = s.wait := by
  rw [s.blockIndexUpdate_eq]; split <;> rfl
@[simp] theorem State.blockIndexUpdate_status (x : Reg) : (s.blockIndexUpdate x).status = s.status := by
  rw [s.blockIndexUpdate_eq]; split <;> rfl
@[simp] theorem State.blockIndexUpdate_cfg (x : Reg) : (s.blockIndexUpdate x).cfg = s.cfg := by
  rw [s.blockIndexUpdate_eq]; split <;> rfl
@[simp] theorem State.blockIndexUpdate_draws (x : Reg) : (s.blockIndexUpdate x).draws = s.draws := by
  rw [s.blockIndexUpdate_eq]; split <;> rfl
@[simp] theorem State.blockIndexUpdate_reg (x r : Reg) : (s.blockIndexUpdate x).reg r = s.reg r := by
  rw [s.blockIndexUpdate_eq]; split <;> rfl
@[simp] theorem State.blockIndexUpdate_memRead (x : Reg) (d : Nat) :
    (s.blockIndexUpdate x).memRead d = s.memRead d := by
  rw [s.blockIndexUpdate_eq]; split <;> rfl
@[simp] theorem State.blockIndexUpdate_i (x : Reg) : (s.blockIndexUpdate x).i =
    if s.cfg.blockIndexIncrement then addr16 (s.i.toNat + x.toNat + 1) else s.i := by
  rw [s.blockIndexUpdate_eq]; split <;> rfl

/-! ### tick -/

@[simp] theorem tick_v : (tick s).v = s.v := rfl
@[simp] theorem tick_i : (tick s).i = s.i := rfl
@[simp] theorem tick_pc : (tick s).pc = s.pc := rfl
@[simp] theorem tick_stack : (tick s).stack = s.stack := rfl
@[simp] theorem tick_mem : (tick s).mem = s.mem := rfl
@[simp] theorem tick_fb : (tick s).fb = s.fb := rfl
@[simp] theorem tick_key : (tick s).key = s.key := rfl
@[simp] theorem tick_wait : (tick s).wait = s.wait := rfl
@[simp] theorem tick_status : (tick s).status = s.status := rfl
@[simp] theorem tick_cfg : (tick s).cfg = s.cfg := rfl
@[simp] theorem tick_draws : (tick s).draws = s.draws := rfl
@[simp] theorem tick_memRead  (d : Nat) : (tick s).memRead d = s.memRead d := rfl
@[simp] theorem tick_fetchInstr : (tick s).fetchInstr = s.fetchInstr := rfl

/-! ### setKey -/

@[simp] theorem setKey_v (k : Nibble) (b : Bool) : (setKey k b s).v = s.v := rfl
@[simp] theorem setKey_i (k : Nibble) (b : Bool) : (setKey k b s).i = s.i := rfl
@[simp] theorem setKey_pc (k : Nibble) (b : Bool) : (setKey k b s).pc = s.pc := rfl
@[simp] theorem setKey_stack (k : Nibble) (b : Bool) : (setKey k b s).stack = s.stack := rfl
@[simp] theorem setKey_dt (k : Nibble) (b : Bool) : (setKey k b s).dt = s.dt := rfl
@[simp] theorem setKey_st (k : Nibble) (b : Bool) : (setKey k b s).st = s.st := rfl
@[simp] theorem setKey_mem (k : Nibble) (b : Bool) : (setKey k b s).mem = s.mem := rfl
@[simp] theorem setKey_fb (k : Nibble) (b : Bool) : (setKey k b s).fb = s.fb := rfl
@[simp] theorem setKey_wait (k : Nibble) (b : Bool) : (setKey k b s).wait = s.wait := rfl
@[simp] theorem setKey_status (k : Nibble) (b : Bool) : (setKey k b s).status = s.status := rfl
@[simp] theorem setKey_cfg (k : Nibble) (b : Bool) : (setKey k b s).cfg = s.cfg := rfl
@[simp] theorem setKey_draws (k : Nibble) (b : Bool) : (setKey k b s).draws = s.draws := rfl
@[simp] theorem setKey_memRead (k : Nibble) (b : Bool) (d : Nat) : (setKey k b s).memRead d = s.memRead d := rfl
@[simp] theorem setKey_fetchInstr (k : Nibble) (b : Bool) : (setKey k b s).fetchInstr = s.fetchInstr := rfl

end Sys2Proof.Machine
end

