-- ==== Sys2Proof/Laws/Ops.lean ====
section
/-! SUPPORT. What each shared operation of Machine/Ops.lean, Operands.lean and Flags.lean does, said once. -/

namespace Sys2Proof.Machine

variable (s : State)

/-! ### Addresses -/

theorem mask12_lt (n : Nat) : mask12 n < 4096 := Nat.mod_lt _ (by decide)

@[simp] theorem mask12_mask12 (n : Nat) : mask12 (mask12 n) = mask12 n := Nat.mod_mod _ _

theorem mask12_of_le {n : Nat} (h : n ≤ 0xFFF) : mask12 n = n := Nat.mod_eq_of_lt (by omega)

@[simp] theorem addr16_toNat (n : Nat) : (addr16 n).toNat = mask12 n := by
  rw [addr16, BitVec.toNat_ofNat]
  exact Nat.mod_eq_of_lt (Nat.lt_of_lt_of_le (mask12_lt n) (by decide))

theorem addr16_toNat_le (n : Nat) : (addr16 n).toNat ≤ 0xFFF := by
  rw [addr16_toNat]; have := mask12_lt n; omega

/-- A register value that is already a 12-bit address is left as it is by the mask. -/
theorem addr16_of_le {w : Word} (h : w.toNat ≤ 0xFFF) : addr16 w.toNat = w := by
  apply BitVec.eq_of_toNat_eq
  rw [addr16_toNat, mask12_of_le h]

@[simp] theorem memRead_mask12 (a : Nat) : s.memRead (mask12 a) = s.memRead a := by
  simp [State.memRead]

/-! ### Registers -/

theorem setReg_reg (x r : Reg) (b : Byte) : (s.setReg x b).reg r = if r = x then b else s.reg r := by
  simp only [State.reg, State.setReg, Vector.getElem_set]
  by_cases h : r = x
  · subst h; simp
  · rw [if_neg fun e => h (BitVec.eq_of_toNat_eq e.symm), if_neg h]

@[simp] theorem setReg_reg_same (x : Reg) (b : Byte) : (s.setReg x b).reg x = b := by simp [setReg_reg]

theorem setReg_reg_other {x r : Reg} (h : r ≠ x) (b : Byte) : (s.setReg x b).reg r = s.reg r := by
  simp [setReg_reg, h]

/-- The flag is the last word in VF; the result is in Vx unless Vx is VF (42_alu.md R75). -/
theorem setResultAndFlag_reg (x r : Reg) (res f : Byte) :
    (s.setResultAndFlag x res f).reg r = if r = vf then f else if r = x then res else s.reg r := by
  simp only [State.setResultAndFlag, setReg_reg]

theorem flagOf_decide (p : Prop) [Decidable p] : flagOf (decide p) = if p then 1 else 0 := by
  by_cases h : p <;> simp [flagOf, h]

theorem reg_loadRegs (a : Nat) (x r : Reg) :
    (s.loadRegs a x).reg r = if r.toNat ≤ x.toNat then s.memRead (a + r.toNat) else s.reg r := by
  simp [State.reg, State.loadRegs]

theorem regsUpTo_length (x : Reg) : (s.regsUpTo x).length = x.toNat + 1 := by
  have := x.isLt
  simp only [State.regsUpTo, List.length_take, Vector.length_toList]
  omega

/-- The k-th byte that Fx55 stores is Vk (43_index_memory.md R93). -/
theorem regsUpTo_getElem (x r : Reg) (h : r.toNat < (s.regsUpTo x).length) :
    (s.regsUpTo x)[r.toNat] = s.reg r := by
  simp [State.regsUpTo, State.reg]

/-! ### Memory -/

theorem memRead_memWrite_same (h : Memory.wf s.cfg s.mem) (a : Nat) (b : Byte) :
    (s.memWrite a b).memRead a = b := Memory.read_write_same s.cfg h _ b

theorem memRead_memWrite_other {a d : Nat} (h : mask12 d ≠ mask12 a) (b : Byte) :
    (s.memWrite a b).memRead d = s.memRead d :=
  Memory.read_write_other s.cfg s.mem b (Ne.symm h)

theorem memWrite_wf (h : Memory.wf s.cfg s.mem) (a : Nat) (b : Byte) :
    Memory.wf (s.memWrite a b).cfg (s.memWrite a b).mem := Memory.wf_write s.cfg h (mask12_lt a) b

/-- Writing bytes keeps the canonical form. -/
theorem memWriteBytes_wf (h : Memory.wf s.cfg s.mem) (a : Nat) (bs : List Byte) :
    Memory.wf (s.memWriteBytes a bs).cfg (s.memWriteBytes a bs).mem := by
  induction bs generalizing s a with
  | nil => exact h
  | cons b bs ih => exact ih (s.memWrite a b) (memWrite_wf s h a b) (a + 1)

/-- Writing bytes leaves every byte outside them as it was. -/
theorem memRead_memWriteBytes_other {a d : Nat} {bs : List Byte}
    (h : ∀ k, k < bs.length → mask12 d ≠ mask12 (a + k)) :
    (s.memWriteBytes a bs).memRead d = s.memRead d := by
  induction bs generalizing s a with
  | nil => rfl
  | cons b bs ih =>
    rw [State.memWriteBytes_cons, ih (s.memWrite a b)]
    · exact memRead_memWrite_other s (h 0 (by simp)) b
    · intro k hk
      have := h (k + 1) (by simpa using hk)
      rwa [Nat.add_assoc, Nat.add_comm 1 k]

/-- Two of the bytes written lie apart, as long as there are no more than the address space holds. -/
theorem mask12_add_ne {a j k : Nat} (hjk : j < k) (hk : k < 4096) : mask12 (a + j) ≠ mask12 (a + k) := by
  unfold mask12; omega

/-- The k-th byte written is what its address reads as afterwards. -/
theorem memRead_memWriteBytes_get (h : Memory.wf s.cfg s.mem) {a : Nat} {bs : List Byte}
    (hlen : bs.length ≤ 4096) {k : Nat} (hk : k < bs.length) :
    (s.memWriteBytes a bs).memRead (a + k) = bs[k] := by
  induction bs generalizing s a k with
  | nil => simp at hk
  | cons b bs ih =>
    rw [State.memWriteBytes_cons]
    have hlen' : bs.length + 1 ≤ 4096 := by simpa using hlen
    cases k with
    | zero =>
      rw [memRead_memWriteBytes_other (s.memWrite a b)]
      · exact memRead_memWrite_same s h a b
      · intro j hj
        have := mask12_add_ne (a := a) (j := 0) (k := j + 1) (by omega) (by omega)
        rwa [← Nat.add_assoc, Nat.add_right_comm] at this
    | succ k =>
      have := ih (s.memWrite a b) (memWrite_wf s h a b) (a := a + 1) (k := k) (by omega)
        (by simpa using hk)
      rw [Nat.add_assoc, Nat.add_comm 1 k] at this
      simpa using this

/-! ### The PC sequencer, the outcomes, the stack -/

/-- Every sequencing kind but Hold gives a 12-bit PC (40_cycle.md R61). -/
theorem nextPc_le (k : Seq) (pc : Word) (h : k = .hold → pc.toNat ≤ 0xFFF) : (nextPc k pc).toNat ≤ 0xFFF := by
  cases k with
  | seq => exact addr16_toNat_le _
  | skip c => cases c <;> exact addr16_toNat_le _
  | jump t => exact addr16_toNat_le _
  | hold => exact h rfl

/-- An arm that finishes answers the advanced state. -/
theorem finish_eq_next {t u : State} {k : Seq} (h : finish t k = .next u) : u = t.advance k := by
  simpa [finish] using h.symm

/-- Fatal-error entry answers the state with the status changed and nothing else. -/
theorem raiseFatal_eq_next {e : FatalCode} {u : State} (h : raiseFatal e s = .next u) :
    u = { s with status := .halted e } := by
  simpa [raiseFatal] using h.symm

theorem push_full (h : s.stack.length = 16) (v : Word) : s.push v = none := by simp [State.push, h]

theorem push_room (h : s.stack.length ≠ 16) (v : Word) : s.push v = some { s with stack := s.stack ++ [v] } := by
  simp [State.push, h]

theorem pop_empty (h : s.stack = []) : s.pop = none := by simp [State.pop, h]

theorem pop_top {l : List Word} {a : Word} (h : s.stack = l ++ [a]) : s.pop = some (a, { s with stack := l }) := by
  simp [State.pop, h]

/-! ### Keys -/

/-- Both readings of the key number agree up to 15 (45_input_timers.md R100). -/
theorem keyPressed_of_le {v : Byte} (h : v.toNat ≤ 15) : s.keyPressed v = s.keyAt (lowNibble v) := by
  unfold State.keyPressed
  cases s.cfg.keyIndexMode <;> simp [h]

theorem mem_nibbles (k : Nibble) : k ∈ (List.range 16).map (BitVec.ofNat 4) :=
  List.mem_map.mpr ⟨k.toNat, List.mem_range.mpr k.isLt, by simp⟩

/-- No key is taken exactly when none is newly pressed (45_input_timers.md R102). -/
theorem lowestFreshKey_none {prev : Vector Bool 16} (h : s.lowestFreshKey prev = none) (k : Nibble) :
    s.freshKey prev k = false := by
  simpa using List.find?_eq_none.mp h k (mem_nibbles k)

/-- The key taken is newly pressed (45_input_timers.md R102). -/
theorem lowestFreshKey_fresh {prev : Vector Bool 16} {k : Nibble} (h : s.lowestFreshKey prev = some k) :
    s.freshKey prev k = true := List.find?_some h

/-- The key taken is the lowest-numbered one (45_input_timers.md R102). -/
theorem lowestFreshKey_lowest {prev : Vector Bool 16} {k j : Nibble} (h : s.lowestFreshKey prev = some k)
    (hj : s.freshKey prev j = true) : k.toNat ≤ j.toNat := by
  obtain ⟨-, i, hi, hk, hbefore⟩ := List.find?_eq_some_iff_getElem.mp h
  simp only [List.length_map, List.length_range] at hi
  by_contra hlt
  have hik : k.toNat = i := by
    rw [← hk, List.getElem_map, List.getElem_range, BitVec.toNat_ofNat]
    exact Nat.mod_eq_of_lt hi
  have := hbefore j.toNat (by omega)
  rw [List.getElem_map, List.getElem_range, BitVec.ofNat_toNat, BitVec.setWidth_eq, hj] at this
  simp at this

end Sys2Proof.Machine
end

