-- ==== Sys2Proof/Laws/Display.lean ====
section
/-! SUPPORT. What drawing a sprite does to each pixel and to the collision flag (44_display.md R96). -/

namespace Sys2Proof.Machine

/-! ### One pixel -/

theorem pixel_mod (fb : Framebuffer) (x y : Nat) : fb.pixel (x % 64) (y % 32) = fb.pixel x y := by
  simp [Framebuffer.pixel]

@[simp] theorem pixel_clear (x y : Nat) : Framebuffer.clear.pixel x y = false := by
  simp [Framebuffer.pixel, Framebuffer.clear]

/-- Writing one pixel changes that pixel alone. -/
theorem pixel_setPixel (fb : Framebuffer) (x y px py : Nat) (b : Bool) :
    (fb.setPixel x y b).pixel px py = if px % 64 = x % 64 ∧ py % 32 = y % 32 then b else fb.pixel px py := by
  simp only [Framebuffer.pixel, Framebuffer.setPixel, Vector.getElem_set]
  by_cases hy : y % 32 = py % 32
  · by_cases hx : x % 64 = px % 64
    · simp [hx, hy]
    · simp [hy, hx, Ne.symm hx]
  · simp [hy, Ne.symm hy]

/-! ### One sprite bit, one row, the sprite -/

/-- Column c of a row with byte b drawn from (x, y) has its bit set and lies on the pixel (px, py). -/
def bitOn (b : Byte) (x y px py c : Nat) : Prop :=
  b.getLsbD (7 - c) = true ∧ px % 64 = (x + c) % 64 ∧ py % 32 = y % 32

/-- Some of the first m columns of the row lie on the pixel. -/
def rowOn (b : Byte) (x y px py m : Nat) : Prop := ∃ c, c < m ∧ bitOn b x y px py c

/-- Some row of the sprite lies on the pixel. -/
def rowsOn (bs : List Byte) (x y px py : Nat) : Prop :=
  ∃ r, ∃ h : r < bs.length, rowOn bs[r] x (y + r) px py 8

/-- `w` is `v` with exactly the pixels of `on` flipped, and a hit noted exactly when one of them was on. -/
structure Flipped (on : Nat → Nat → Prop) (v w : Canvas) : Prop where
  flip : ∀ px py, on px py → w.fb.pixel px py = !v.fb.pixel px py
  keep : ∀ px py, ¬on px py → w.fb.pixel px py = v.fb.pixel px py
  hit  : w.hit = true ↔ v.hit = true ∨ ∃ px py, on px py ∧ v.fb.pixel px py = true

theorem drawBit_flipped (v : Canvas) (b : Byte) (x y c : Nat) :
    Flipped (fun px py => bitOn b x y px py c) v (v.drawBit b x y c) := by
  unfold Canvas.drawBit
  split
  · rename_i hb
    refine ⟨fun px py h => ?_, fun px py h => ?_, ?_⟩
    · rw [pixel_setPixel, if_pos ⟨h.2.1, h.2.2⟩, ← pixel_mod _ px py, h.2.1, h.2.2, pixel_mod]
    · rw [pixel_setPixel, if_neg fun e => h ⟨hb, e.1, e.2⟩]
    · constructor
      · intro h
        rcases Bool.or_eq_true_iff.mp h with h | h
        · exact .inl h
        · exact .inr ⟨x + c, y, ⟨hb, rfl, rfl⟩, h⟩
      · rintro (h | ⟨px, py, ⟨-, hx, hy⟩, h⟩)
        · simp [h]
        · rw [← pixel_mod, hx, hy, pixel_mod] at h
          simp [h]
  · rename_i hb
    refine ⟨fun px py h => absurd h.1 hb, fun _ _ _ => rfl, ?_⟩
    simp [bitOn, hb]

/-- Drawing two sets of pixels that do not meet, one after the other, draws their union. -/
theorem Flipped.trans {p q : Nat → Nat → Prop} {u v w : Canvas} (h1 : Flipped p u v) (h2 : Flipped q v w)
    (hpq : ∀ px py, p px py → ¬q px py) : Flipped (fun px py => p px py ∨ q px py) u w := by
  refine ⟨?_, ?_, ?_⟩
  · rintro px py (h | h)
    · rw [h2.keep px py (hpq px py h), h1.flip px py h]
    · rw [h2.flip px py h, h1.keep px py fun hp => hpq px py hp h]
  · intro px py h
    rw [h2.keep px py fun hq => h (.inr hq), h1.keep px py fun hp => h (.inl hp)]
  · rw [h2.hit, h1.hit]
    constructor
    · rintro ((h | ⟨px, py, hp, h⟩) | ⟨px, py, hq, h⟩)
      · exact .inl h
      · exact .inr ⟨px, py, .inl hp, h⟩
      · exact .inr ⟨px, py, .inr hq, (h1.keep px py fun hp => hpq px py hp hq) ▸ h⟩
    · rintro (h | ⟨px, py, hp | hq, h⟩)
      · exact .inl (.inl h)
      · exact .inl (.inr ⟨px, py, hp, h⟩)
      · exact .inr ⟨px, py, hq, by rw [h1.keep px py fun hp => hpq px py hp hq]; exact h⟩

theorem Flipped.congr {p q : Nat → Nat → Prop} {v w : Canvas} (h : Flipped p v w) (hpq : ∀ px py, q px py ↔ p px py) :
    Flipped q v w := by
  have : q = p := by funext px py; exact propext (hpq px py)
  exact this ▸ h

theorem Flipped.refl {p : Nat → Nat → Prop} (v : Canvas) (h : ∀ px py, ¬p px py) : Flipped p v v := by
  refine ⟨fun px py hp => absurd hp (h px py), fun _ _ _ => rfl, ?_⟩
  simp [h]

/-- The first m columns of a row: 8 columns never meet modulo 64. -/
theorem drawRow_prefix (v : Canvas) (b : Byte) (x y m : Nat) (hm : m ≤ 8) :
    Flipped (fun px py => rowOn b x y px py m) v ((List.range m).foldl (fun w c => w.drawBit b x y c) v) := by
  induction m with
  | zero => exact Flipped.refl v fun px py ⟨c, hc, _⟩ => by omega
  | succ m ih =>
    rw [List.range_succ, List.foldl_append]
    refine Flipped.congr (Flipped.trans (ih (by omega)) (drawBit_flipped _ b x y m) ?_) ?_
    · rintro px py ⟨c, hc, -, h1, -⟩ ⟨-, h2, -⟩
      omega
    · intro px py
      constructor
      · rintro ⟨c, hc, h⟩
        rcases Nat.lt_succ_iff_lt_or_eq.mp hc with hc | rfl
        · exact .inl ⟨c, hc, h⟩
        · exact .inr h
      · rintro (⟨c, hc, h⟩ | h)
        · exact ⟨c, by omega, h⟩
        · exact ⟨m, by omega, h⟩

theorem drawRow_flipped (v : Canvas) (b : Byte) (x y : Nat) :
    Flipped (fun px py => rowOn b x y px py 8) v (v.drawRow b x y) := drawRow_prefix v b x y 8 (Nat.le_refl 8)

/-- A sprite of at most 32 rows flips exactly the pixels under its set bits, each once (R96). -/
theorem drawRows_flipped (v : Canvas) (x y : Nat) (bs : List Byte) (hlen : bs.length ≤ 32) :
    Flipped (rowsOn bs x y) v (v.drawRows x y bs) := by
  induction bs generalizing v y with
  | nil => exact Flipped.refl v fun px py ⟨r, hr, _⟩ => by simp at hr
  | cons b bs ih =>
    have hlen' : bs.length + 1 ≤ 32 := by simpa using hlen
    refine Flipped.congr (Flipped.trans (drawRow_flipped v b x y) (ih (v.drawRow b x y) (y + 1) (by omega)) ?_) ?_
    · rintro px py ⟨-, -, -, -, h1⟩ ⟨r, hr, -, -, -, -, h2⟩
      omega
    · intro px py
      constructor
      · rintro ⟨r, hr, h⟩
        cases r with
        | zero => exact .inl h
        | succ r =>
          refine .inr ⟨r, by simpa using hr, ?_⟩
          rw [Nat.add_assoc, Nat.add_comm 1 r]
          simpa using h
      · rintro (h | ⟨r, hr, h⟩)
        · exact ⟨0, by simp, h⟩
        · refine ⟨r + 1, by simpa using hr, ?_⟩
          rw [Nat.add_assoc, Nat.add_comm 1 r] at h
          simpa using h

/-- What Dxyn draws, in the terms of its operands (R96). -/
theorem drawn_flipped (s : State) (x y : Reg) (n : Nibble) :
    Flipped (rowsOn (s.spriteBytes n) (s.reg x).toNat (s.reg y).toNat) ⟨s.fb, false⟩ (s.drawn x y n) :=
  drawRows_flipped _ _ _ _ (by
    have := n.isLt
    simp only [State.spriteBytes, List.length_map, List.length_range]; omega)

end Sys2Proof.Machine
end

