-- ==== Sys2Proof/Laws/Exec.lean ====
section
/-! SUPPORT. What an instruction can do, said once (40_cycle.md R59, R60): it ends in the sequencer after its writes, or
it is a fatal error; and what the writes of an arm can be. -/

namespace Sys2Proof.Machine

/-- What the writes of an execute arm can be, before the sequencer moves PC. -/
structure ArmWrites (s t : State) : Prop where
  pc_eq : t.pc = s.pc
  key_eq : t.key = s.key
  cfg_eq : t.cfg = s.cfg
  status_eq : t.status = s.status
  i_eq : t.i = s.i ∨ t.i.toNat ≤ 0xFFF
  mem_wf : Memory.wf s.cfg s.mem → Memory.wf t.cfg t.mem
  stack_eq : t.stack = s.stack ∨ (s.stack.length ≠ 16 ∧ t.stack = s.stack ++ [s.pc]) ∨ ∃ a, s.stack = t.stack ++ [a]

theorem ArmWrites.refl (s : State) : ArmWrites s s := ⟨rfl, rfl, rfl, rfl, .inl rfl, id, .inl rfl⟩

theorem setReg_armWrites (s : State) (x : Reg) (b : Byte) : ArmWrites s (s.setReg x b) :=
  ⟨rfl, rfl, rfl, rfl, .inl rfl, id, .inl rfl⟩

theorem setI_armWrites (s : State) (n : Nat) : ArmWrites s (s.setI n) :=
  ⟨rfl, rfl, rfl, rfl, .inr (addr16_toNat_le n), id, .inl rfl⟩

theorem memWriteBytes_armWrites (s : State) (a : Nat) (bs : List Byte) : ArmWrites s (s.memWriteBytes a bs) :=
  ⟨by simp, by simp, by simp, by simp, .inl (by simp), fun h => memWriteBytes_wf s h a bs, .inl (by simp)⟩

theorem loadRegs_armWrites (s : State) (a : Nat) (x : Reg) : ArmWrites s (s.loadRegs a x) :=
  ⟨by simp, by simp, by simp, by simp, .inl (by simp), fun h => by simpa using h, .inl (by simp)⟩

theorem blockIndexUpdate_armWrites (s : State) (x : Reg) : ArmWrites s (s.blockIndexUpdate x) := by
  rw [s.blockIndexUpdate_eq]
  split
  · exact setI_armWrites s _
  · exact ArmWrites.refl s

/-- Writes that leave the stack alone may be followed by others that do. -/
theorem ArmWrites.trans {s t u : State} (h1 : ArmWrites s t) (h2 : ArmWrites t u) (hs : t.stack = s.stack) :
    ArmWrites s u where
  pc_eq := h2.pc_eq.trans h1.pc_eq
  key_eq := h2.key_eq.trans h1.key_eq
  cfg_eq := h2.cfg_eq.trans h1.cfg_eq
  status_eq := h2.status_eq.trans h1.status_eq
  i_eq := h2.i_eq.elim (fun e => e ▸ h1.i_eq) .inr
  mem_wf := h2.mem_wf ∘ h1.mem_wf
  stack_eq := by rw [← hs, ← h1.pc_eq]; exact h2.stack_eq

/-- The instruction ends in the sequencer with kind k, after writes that leave the state t. The kind is Hold for Fx0A
alone, which is the one instruction that starts a wait. -/
def FinishesWith (i : Instr) (s t : State) (k : Seq) : Prop :=
  exec i s = finish t k ∧ ArmWrites s t ∧
    ((k ≠ .hold ∧ t.wait = s.wait) ∨
      ∃ x, i = .ldVxK x ∧ k = .hold ∧ t = s.setWait (some { x := x, prev := s.key }))

theorem finishes_plain {i : Instr} {s t : State} {k : Seq} (h : exec i s = finish t k) (hw : ArmWrites s t)
    (hk : k ≠ .hold) (hwait : t.wait = s.wait) : FinishesWith i s t k := ⟨h, hw, .inl ⟨hk, hwait⟩⟩

theorem finishes_self {i : Instr} {s : State} {k : Seq} (h : exec i s = finish s k) (hk : k ≠ .hold) :
    FinishesWith i s s k := finishes_plain h (ArmWrites.refl s) hk rfl

theorem finishes_reg {i : Instr} {s : State} {x : Reg} {b : Byte} (h : exec i s = finish (s.setReg x b) .seq) :
    FinishesWith i s (s.setReg x b) .seq := finishes_plain h (setReg_armWrites s x b) (by simp) rfl

theorem finishes_flag {i : Instr} {s : State} {x : Reg} {b f : Byte}
    (h : exec i s = finish (s.setResultAndFlag x b f) .seq) : FinishesWith i s (s.setResultAndFlag x b f) .seq :=
  finishes_plain h ⟨rfl, rfl, rfl, rfl, .inl rfl, id, .inl rfl⟩ (by simp) rfl

theorem finishes_index {i : Instr} {s : State} {n : Nat} (h : exec i s = finish (s.setI n) .seq) :
    FinishesWith i s (s.setI n) .seq := finishes_plain h (setI_armWrites s n) (by simp) rfl

/-- An instruction finishes after its arm's writes, or raises the one fatal error its rule names. -/
theorem exec_cases (i : Instr) (s : State) :
    (∃ t k, FinishesWith i s t k) ∨
    (s.stack.length = 16 ∧ (∃ nnn, i = .call nnn) ∧ exec i s = raiseFatal .stackOverflow s) ∨
    (s.stack = [] ∧ i = .ret ∧ exec i s = raiseFatal .stackUnderflow s) := by
  cases i with
  | cls => exact .inl ⟨s.setFb Framebuffer.clear, .seq, rfl, ⟨rfl, rfl, rfl, rfl, .inl rfl, id, .inl rfl⟩, .inl ⟨by simp, rfl⟩⟩
  | ret =>
    rcases List.eq_nil_or_concat s.stack with h | ⟨l, a, h⟩
    · exact .inr (.inr ⟨h, rfl, by simp [exec, execRet, pop_empty s h]⟩)
    · rw [List.concat_eq_append] at h
      exact .inl ⟨{ s with stack := l }, .jump (a.toNat + 2), by simp [exec, execRet, pop_top s h],
        ⟨rfl, rfl, rfl, rfl, .inl rfl, id, .inr (.inr ⟨a, h⟩)⟩, .inl ⟨by simp, rfl⟩⟩
  | jp nnn => exact .inl ⟨_, _, finishes_self rfl (by simp)⟩
  | call nnn =>
    by_cases h : s.stack.length = 16
    · exact .inr (.inl ⟨h, ⟨nnn, rfl⟩, by simp [exec, execCall, push_full s h]⟩)
    · exact .inl ⟨{ s with stack := s.stack ++ [s.pc] }, .jump nnn.toNat, by simp [exec, execCall, push_room s h],
        ⟨rfl, rfl, rfl, rfl, .inl rfl, id, .inr (.inl ⟨h, rfl⟩)⟩, .inl ⟨by simp, rfl⟩⟩
  | seImm x nn => exact .inl ⟨_, _, finishes_self rfl (by simp)⟩
  | sneImm x nn => exact .inl ⟨_, _, finishes_self rfl (by simp)⟩
  | seReg x y => exact .inl ⟨_, _, finishes_self rfl (by simp)⟩
  | ldImm x nn => exact .inl ⟨_, _, finishes_reg rfl⟩
  | addImm x nn => exact .inl ⟨_, _, finishes_reg rfl⟩
  | ldReg x y => exact .inl ⟨_, _, finishes_reg rfl⟩
  | orReg x y => exact .inl ⟨_, _, finishes_reg rfl⟩
  | andReg x y => exact .inl ⟨_, _, finishes_reg rfl⟩
  | xorReg x y => exact .inl ⟨_, _, finishes_reg rfl⟩
  | addReg x y => exact .inl ⟨_, _, finishes_flag rfl⟩
  | sub x y => exact .inl ⟨_, _, finishes_flag rfl⟩
  | shr x y => exact .inl ⟨_, _, finishes_flag rfl⟩
  | subn x y => exact .inl ⟨_, _, finishes_flag rfl⟩
  | shl x y => exact .inl ⟨_, _, finishes_flag rfl⟩
  | sneReg x y => exact .inl ⟨_, _, finishes_self rfl (by simp)⟩
  | ldI nnn => exact .inl ⟨_, _, finishes_index rfl⟩
  | jpV0 nnn => exact .inl ⟨_, _, finishes_self rfl (by simp)⟩
  | rnd x nn =>
    exact .inl ⟨s.countDraw.setReg x (s.drawnByte &&& nn), .seq, rfl,
      ⟨rfl, rfl, rfl, rfl, .inl rfl, id, .inl rfl⟩, .inl ⟨by simp, rfl⟩⟩
  | drw x y n =>
    exact .inl ⟨(s.setFb (s.drawn x y n).fb).setReg vf (flagOf (s.drawn x y n).hit), .seq, rfl,
      ⟨rfl, rfl, rfl, rfl, .inl rfl, id, .inl rfl⟩, .inl ⟨by simp, rfl⟩⟩
  | skp x => exact .inl ⟨_, _, finishes_self rfl (by simp)⟩
  | sknp x => exact .inl ⟨_, _, finishes_self rfl (by simp)⟩
  | ldVxDt x => exact .inl ⟨_, _, finishes_reg rfl⟩
  | ldVxK x =>
    exact .inl ⟨s.setWait (some { x := x, prev := s.key }), .hold, rfl,
      ⟨rfl, rfl, rfl, rfl, .inl rfl, id, .inl rfl⟩, .inr ⟨x, rfl, rfl, rfl⟩⟩
  | ldDtVx x =>
    exact .inl ⟨s.setDt (s.reg x), .seq, rfl, ⟨rfl, rfl, rfl, rfl, .inl rfl, id, .inl rfl⟩, .inl ⟨by simp, rfl⟩⟩
  | ldStVx x =>
    exact .inl ⟨s.setSt (s.reg x), .seq, rfl, ⟨rfl, rfl, rfl, rfl, .inl rfl, id, .inl rfl⟩, .inl ⟨by simp, rfl⟩⟩
  | addI x => exact .inl ⟨_, _, finishes_index rfl⟩
  | ldF x => exact .inl ⟨_, _, finishes_index rfl⟩
  | ldB x =>
    exact .inl ⟨s.memWriteBytes s.i.toNat (bcdDigits (s.reg x)), .seq, rfl, memWriteBytes_armWrites s _ _,
      .inl ⟨by simp, by simp⟩⟩
  | stRegs x =>
    exact .inl ⟨(s.memWriteBytes s.i.toNat (s.regsUpTo x)).blockIndexUpdate x, .seq, rfl,
      (memWriteBytes_armWrites s _ _).trans (blockIndexUpdate_armWrites _ x) (by simp), .inl ⟨by simp, by simp⟩⟩
  | ldRegs x =>
    exact .inl ⟨(s.loadRegs s.i.toNat x).blockIndexUpdate x, .seq, rfl,
      (loadRegs_armWrites s _ x).trans (blockIndexUpdate_armWrites _ x) (by simp), .inl ⟨by simp, by simp⟩⟩
  | unknown w => exact .inl ⟨_, _, finishes_self rfl (by simp)⟩

/-- What a waiting step can do (45_input_timers.md R102). -/
theorem waitStep_cases (w : Awaiting) (s : State) :
    ((∀ k, s.freshKey w.prev k = false) ∧
      waitStep w s = finish (s.setWait (some { x := w.x, prev := s.key })) .hold) ∨
    ∃ k : Nibble, LowestFresh s w.prev k ∧
      waitStep w s = finish ((s.setReg w.x (k.setWidth 8)).setWait none) .seq := by
  unfold waitStep
  split
  · rename_i h
    exact .inl ⟨lowestFreshKey_none s h, rfl⟩
  · rename_i k h
    exact .inr ⟨k, ⟨lowestFreshKey_fresh s h, fun j hj => lowestFreshKey_lowest s h hj⟩, rfl⟩

end Sys2Proof.Machine
end

