-- ==== Sys2Proof/Laws/Step.lean ====
section
/-! SUPPORT. The step and its report by the core's status and wait (40_cycle.md R53 to R56), and the stack instructions
by what the stack holds. -/

namespace Sys2Proof.Machine

variable {s t : State}

/-! ### The step -/

theorem step_halted {e : FatalCode} (h : s.status = .halted e) : step s = .next s := by simp [step, h]

theorem step_waiting {w : Awaiting} (h : s.status = .running) (hw : s.wait = some w) : step s = waitStep w s := by
  simp [step, h, hw]

theorem step_running (h : s.status = .running) (hw : s.wait = none) : step s = exec s.fetchInstr s := by
  simp [step, h, hw]

/-- A step is the unchanged state of a halted core, a waiting step, or the execution of the instruction at PC. -/
theorem step_cases (s : State) :
    ((∃ e, s.status = .halted e) ∧ step s = .next s) ∨
    (s.status = .running ∧ ∃ w, s.wait = some w ∧ step s = waitStep w s) ∨
    (s.status = .running ∧ s.wait = none ∧ step s = exec s.fetchInstr s) := by
  cases h : s.status with
  | halted e => exact .inl ⟨⟨e, rfl⟩, step_halted h⟩
  | running =>
    cases hw : s.wait with
    | none => exact .inr (.inr ⟨rfl, rfl, step_running h hw⟩)
    | some w => exact .inr (.inl ⟨rfl, w, rfl, step_waiting h hw⟩)

/-! ### The report -/

theorem stepReport_halted {e : FatalCode} (h : s.status = .halted e) : stepReport s = some .halted := by
  simp [stepReport, h]

theorem stepReport_waiting {w : Awaiting} (h : s.status = .running) (hw : s.wait = some w)
    (ht : waitStep w s = .next t) : stepReport s = some (reportAfter false none t) := by
  simp [stepReport, h, hw, ht, reportOf]

theorem stepReport_running (h : s.status = .running) (hw : s.wait = none) (ht : exec s.fetchInstr s = .next t) :
    stepReport s = some (reportAfter (marksScreenDirty s.fetchInstr) (unknownEvent s.pc s.fetchInstr) t) := by
  simp [stepReport, h, hw, ht, reportOf]

theorem reportAfter_running {d : Bool} {e : Option (Word × Word)} (h : t.status = .running) :
    reportAfter d e t = .next { screenDirty := d, awaitingKey := t.wait.isSome, unknown := e } := by
  simp [reportAfter, h]

theorem reportAfter_halted {d : Bool} {e : Option (Word × Word)} {c : FatalCode} (h : t.status = .halted c) :
    reportAfter d e t = .fatal c := by
  simp [reportAfter, h]

/-! ### CALL and RET -/

theorem exec_ret_top {l : List Word} {a : Word} (h : s.stack = l ++ [a]) :
    exec .ret s = .next (State.advance { s with stack := l } (.jump (a.toNat + 2))) := by
  simp [exec, execRet, pop_top s h, finish]

theorem exec_ret_empty (h : s.stack = []) : exec .ret s = .next { s with status := .halted .stackUnderflow } := by
  simp [exec, execRet, pop_empty s h, raiseFatal]

theorem exec_call_room (h : s.stack.length ≠ 16) (nnn : Addr) :
    exec (.call nnn) s = .next (State.advance { s with stack := s.stack ++ [s.pc] } (.jump nnn.toNat)) := by
  simp [exec, execCall, push_room s h, finish]

end Sys2Proof.Machine
end

