-- ==== Sys2Proof/Laws/HostOps.lean ====
section
/-! SUPPORT. What the host's operations and the runs can do (20_memory.md R36 to R41; 70_reset_and_hazards.md R119,
R122). -/

namespace Sys2Proof.Machine

/-- An image that fits is written from 0x200 up. -/
theorem load_of_le {image : List Byte} (h : image.length ≤ 3584) (s : State) :
    load image s = .next (s.memWriteBytes 0x200 image) := by
  rw [load, if_neg (by omega)]

/-- A load that is not refused had an image that fits, and wrote memory alone. -/
theorem load_eq_next {image : List Byte} {s t : State} (h : load image s = .next t) :
    image.length ≤ 3584 ∧ t = s.memWriteBytes 0x200 image := by
  by_cases hl : image.length ≤ 3584
  · rw [load_of_le hl] at h
    exact ⟨hl, by cases h; rfl⟩
  · rw [load, if_pos (by omega)] at h
    cases h

/-- A loaded byte reads back. -/
theorem load_memRead {image : List Byte} (h : image.length ≤ 3584) (s : State) (hw : Memory.wf s.cfg s.mem)
    {k : Nat} (hk : k < image.length) : (s.memWriteBytes 0x200 image).memRead (0x200 + k) = image[k] :=
  memRead_memWriteBytes_get s hw (by omega) hk

/-- Outside the image a load leaves every byte. -/
theorem load_memRead_other {image : List Byte} (h : image.length ≤ 3584) (s : State) {a : Nat} (ha : a ≤ 0xFFF)
    (ho : a < 0x200 ∨ 0x200 + image.length ≤ a) : (s.memWriteBytes 0x200 image).memRead a = s.memRead a := by
  apply memRead_memWriteBytes_other
  intro k hk
  rw [mask12_of_le ha, mask12_of_le (by omega)]
  omega

/-- A run of one transition and then the rest. -/
theorem runEvents_cons_next {e : Event} {s t : State} (h : transition e s = .next t) (es : List Event) :
    runEvents (e :: es) s = runEvents es t := by
  rw [runEvents, h]

/-- A run may be cut anywhere. -/
theorem runEvents_append {es : List Event} {s t : State} (h : runEvents es s = .next t) (fs : List Event) :
    runEvents (es ++ fs) s = runEvents fs t := by
  induction es generalizing s with
  | nil => cases h; rfl
  | cons e es ih =>
    rw [runEvents] at h
    split at h
    · rename_i u hu
      rw [List.cons_append, runEvents_cons_next hu]
      exact ih h
    · cases h
    · cases h

/-- A contract kept by a run that may not load at its start is kept by one that may. -/
theorem keepsLoadContract_mono (es : List Event) (h : keepsLoadContract false es = true) (fresh : Bool) :
    keepsLoadContract fresh es = true := by
  induction es with
  | nil => rfl
  | cons e es ih =>
    cases e with
    | load image => cases h
    | step => exact h
    | reset => exact h
    | tick => exact ih h
    | setKey k b => exact ih h
    | readFb => exact ih h
    | readTimers => exact ih h

end Sys2Proof.Machine
end

