-- ==== Sys2Proof/Laws/PerInstr.lean ====
section
/-! SUPPORT. One lemma per instruction: its word is one that its row of the opcode map accepts (30_encoding.md R45), and
the word of a well-formed UNKNOWN is one that no row accepts (R47). -/

namespace Sys2Proof.Laws.EncodeMatchesRow

/-- The row of the opcode map of a named instruction (R45). -/
def rowOf : Instr → Option Pattern
  | .cls => some ⟨0xFFFF, 0x00E0⟩
  | .ret => some ⟨0xFFFF, 0x00EE⟩
  | .jp _ => some ⟨0xF000, 0x1000⟩
  | .call _ => some ⟨0xF000, 0x2000⟩
  | .seImm _ _ => some ⟨0xF000, 0x3000⟩
  | .sneImm _ _ => some ⟨0xF000, 0x4000⟩
  | .seReg _ _ => some ⟨0xF00F, 0x5000⟩
  | .ldImm _ _ => some ⟨0xF000, 0x6000⟩
  | .addImm _ _ => some ⟨0xF000, 0x7000⟩
  | .ldReg _ _ => some ⟨0xF00F, 0x8000⟩
  | .orReg _ _ => some ⟨0xF00F, 0x8001⟩
  | .andReg _ _ => some ⟨0xF00F, 0x8002⟩
  | .xorReg _ _ => some ⟨0xF00F, 0x8003⟩
  | .addReg _ _ => some ⟨0xF00F, 0x8004⟩
  | .sub _ _ => some ⟨0xF00F, 0x8005⟩
  | .shr _ _ => some ⟨0xF00F, 0x8006⟩
  | .subn _ _ => some ⟨0xF00F, 0x8007⟩
  | .shl _ _ => some ⟨0xF00F, 0x800E⟩
  | .sneReg _ _ => some ⟨0xF00F, 0x9000⟩
  | .ldI _ => some ⟨0xF000, 0xA000⟩
  | .jpV0 _ => some ⟨0xF000, 0xB000⟩
  | .rnd _ _ => some ⟨0xF000, 0xC000⟩
  | .drw _ _ _ => some ⟨0xF000, 0xD000⟩
  | .skp _ => some ⟨0xF0FF, 0xE09E⟩
  | .sknp _ => some ⟨0xF0FF, 0xE0A1⟩
  | .ldVxDt _ => some ⟨0xF0FF, 0xF007⟩
  | .ldVxK _ => some ⟨0xF0FF, 0xF00A⟩
  | .ldDtVx _ => some ⟨0xF0FF, 0xF015⟩
  | .ldStVx _ => some ⟨0xF0FF, 0xF018⟩
  | .addI _ => some ⟨0xF0FF, 0xF01E⟩
  | .ldF _ => some ⟨0xF0FF, 0xF029⟩
  | .ldB _ => some ⟨0xF0FF, 0xF033⟩
  | .stRegs _ => some ⟨0xF0FF, 0xF055⟩
  | .ldRegs _ => some ⟨0xF0FF, 0xF065⟩
  | .unknown _ => none

/-- The instruction's word is accepted by its own row of the map, and by none when it has no row. -/
def Statement (i : Instr) : Prop :=
  i.wellFormed = true →
    match rowOf i with
    | some p => p ∈ patterns ∧ p.accepts (encode i) = true
    | none => recognised (encode i) = false

theorem cls : Statement .cls := by
  intro _; exact ⟨by decide, by decide⟩
theorem ret : Statement .ret := by
  intro _; exact ⟨by decide, by decide⟩
theorem jp (nnn : Addr) : Statement (.jp nnn) := by
  intro _
  refine ⟨by decide, (accepts_F000 _ _).mpr ?_⟩
  rw [encode, toNat_nnn]
  have := nnn.isLt
  simp; omega
theorem call (nnn : Addr) : Statement (.call nnn) := by
  intro _
  refine ⟨by decide, (accepts_F000 _ _).mpr ?_⟩
  rw [encode, toNat_nnn]
  have := nnn.isLt
  simp; omega
theorem seImm (x : Reg) (nn : Byte) : Statement (.seImm x nn) := by
  intro _
  refine ⟨by decide, (accepts_F000 _ _).mpr ?_⟩
  rw [encode, toNat_xnn]
  have := x.isLt; have := nn.isLt
  simp; omega
theorem sneImm (x : Reg) (nn : Byte) : Statement (.sneImm x nn) := by
  intro _
  refine ⟨by decide, (accepts_F000 _ _).mpr ?_⟩
  rw [encode, toNat_xnn]
  have := x.isLt; have := nn.isLt
  simp; omega
theorem seReg (x y : Reg) : Statement (.seReg x y) := by
  intro _
  refine ⟨by decide, (accepts_F00F _ _).mpr ?_⟩
  rw [encode, toNat_xyn]
  have := x.isLt; have := y.isLt
  simp; omega
theorem ldImm (x : Reg) (nn : Byte) : Statement (.ldImm x nn) := by
  intro _
  refine ⟨by decide, (accepts_F000 _ _).mpr ?_⟩
  rw [encode, toNat_xnn]
  have := x.isLt; have := nn.isLt
  simp; omega
theorem addImm (x : Reg) (nn : Byte) : Statement (.addImm x nn) := by
  intro _
  refine ⟨by decide, (accepts_F000 _ _).mpr ?_⟩
  rw [encode, toNat_xnn]
  have := x.isLt; have := nn.isLt
  simp; omega
theorem ldReg (x y : Reg) : Statement (.ldReg x y) := by
  intro _
  refine ⟨by decide, (accepts_F00F _ _).mpr ?_⟩
  rw [encode, toNat_xyn]
  have := x.isLt; have := y.isLt
  simp; omega
theorem orReg (x y : Reg) : Statement (.orReg x y) := by
  intro _
  refine ⟨by decide, (accepts_F00F _ _).mpr ?_⟩
  rw [encode, toNat_xyn]
  have := x.isLt; have := y.isLt
  simp; omega
theorem andReg (x y : Reg) : Statement (.andReg x y) := by
  intro _
  refine ⟨by decide, (accepts_F00F _ _).mpr ?_⟩
  rw [encode, toNat_xyn]
  have := x.isLt; have := y.isLt
  simp; omega
theorem xorReg (x y : Reg) : Statement (.xorReg x y) := by
  intro _
  refine ⟨by decide, (accepts_F00F _ _).mpr ?_⟩
  rw [encode, toNat_xyn]
  have := x.isLt; have := y.isLt
  simp; omega
theorem addReg (x y : Reg) : Statement (.addReg x y) := by
  intro _
  refine ⟨by decide, (accepts_F00F _ _).mpr ?_⟩
  rw [encode, toNat_xyn]
  have := x.isLt; have := y.isLt
  simp; omega
theorem sub (x y : Reg) : Statement (.sub x y) := by
  intro _
  refine ⟨by decide, (accepts_F00F _ _).mpr ?_⟩
  rw [encode, toNat_xyn]
  have := x.isLt; have := y.isLt
  simp; omega
theorem shr (x y : Reg) : Statement (.shr x y) := by
  intro _
  refine ⟨by decide, (accepts_F00F _ _).mpr ?_⟩
  rw [encode, toNat_xyn]
  have := x.isLt; have := y.isLt
  simp; omega
theorem subn (x y : Reg) : Statement (.subn x y) := by
  intro _
  refine ⟨by decide, (accepts_F00F _ _).mpr ?_⟩
  rw [encode, toNat_xyn]
  have := x.isLt; have := y.isLt
  simp; omega
theorem shl (x y : Reg) : Statement (.shl x y) := by
  intro _
  refine ⟨by decide, (accepts_F00F _ _).mpr ?_⟩
  rw [encode, toNat_xyn]
  have := x.isLt; have := y.isLt
  simp; omega
theorem sneReg (x y : Reg) : Statement (.sneReg x y) := by
  intro _
  refine ⟨by decide, (accepts_F00F _ _).mpr ?_⟩
  rw [encode, toNat_xyn]
  have := x.isLt; have := y.isLt
  simp; omega
theorem ldI (nnn : Addr) : Statement (.ldI nnn) := by
  intro _
  refine ⟨by decide, (accepts_F000 _ _).mpr ?_⟩
  rw [encode, toNat_nnn]
  have := nnn.isLt
  simp; omega
theorem jpV0 (nnn : Addr) : Statement (.jpV0 nnn) := by
  intro _
  refine ⟨by decide, (accepts_F000 _ _).mpr ?_⟩
  rw [encode, toNat_nnn]
  have := nnn.isLt
  simp; omega
theorem rnd (x : Reg) (nn : Byte) : Statement (.rnd x nn) := by
  intro _
  refine ⟨by decide, (accepts_F000 _ _).mpr ?_⟩
  rw [encode, toNat_xnn]
  have := x.isLt; have := nn.isLt
  simp; omega
theorem drw (x y : Reg) (n : Nibble) : Statement (.drw x y n) := by
  intro _
  refine ⟨by decide, (accepts_F000 _ _).mpr ?_⟩
  rw [encode, toNat_xyn]
  have := x.isLt; have := y.isLt; have := n.isLt
  simp; omega
theorem skp (x : Reg) : Statement (.skp x) := by
  intro _
  refine ⟨by decide, (accepts_F0FF _ _).mpr ?_⟩
  rw [encode, toNat_xnn]
  have := x.isLt
  simp; omega
theorem sknp (x : Reg) : Statement (.sknp x) := by
  intro _
  refine ⟨by decide, (accepts_F0FF _ _).mpr ?_⟩
  rw [encode, toNat_xnn]
  have := x.isLt
  simp; omega
theorem ldVxDt (x : Reg) : Statement (.ldVxDt x) := by
  intro _
  refine ⟨by decide, (accepts_F0FF _ _).mpr ?_⟩
  rw [encode, toNat_xnn]
  have := x.isLt
  simp; omega
theorem ldVxK (x : Reg) : Statement (.ldVxK x) := by
  intro _
  refine ⟨by decide, (accepts_F0FF _ _).mpr ?_⟩
  rw [encode, toNat_xnn]
  have := x.isLt
  simp; omega
theorem ldDtVx (x : Reg) : Statement (.ldDtVx x) := by
  intro _
  refine ⟨by decide, (accepts_F0FF _ _).mpr ?_⟩
  rw [encode, toNat_xnn]
  have := x.isLt
  simp; omega
theorem ldStVx (x : Reg) : Statement (.ldStVx x) := by
  intro _
  refine ⟨by decide, (accepts_F0FF _ _).mpr ?_⟩
  rw [encode, toNat_xnn]
  have := x.isLt
  simp; omega
theorem addI (x : Reg) : Statement (.addI x) := by
  intro _
  refine ⟨by decide, (accepts_F0FF _ _).mpr ?_⟩
  rw [encode, toNat_xnn]
  have := x.isLt
  simp; omega
theorem ldF (x : Reg) : Statement (.ldF x) := by
  intro _
  refine ⟨by decide, (accepts_F0FF _ _).mpr ?_⟩
  rw [encode, toNat_xnn]
  have := x.isLt
  simp; omega
theorem ldB (x : Reg) : Statement (.ldB x) := by
  intro _
  refine ⟨by decide, (accepts_F0FF _ _).mpr ?_⟩
  rw [encode, toNat_xnn]
  have := x.isLt
  simp; omega
theorem stRegs (x : Reg) : Statement (.stRegs x) := by
  intro _
  refine ⟨by decide, (accepts_F0FF _ _).mpr ?_⟩
  rw [encode, toNat_xnn]
  have := x.isLt
  simp; omega
theorem ldRegs (x : Reg) : Statement (.ldRegs x) := by
  intro _
  refine ⟨by decide, (accepts_F0FF _ _).mpr ?_⟩
  rw [encode, toNat_xnn]
  have := x.isLt
  simp; omega
theorem unknown (w : Word) : Statement (.unknown w) := by
  intro h
  show recognised w = false
  simpa [Instr.wellFormed] using h

end Sys2Proof.Laws.EncodeMatchesRow
end

