-- ==== Sys2Proof/Tests/Slice0.lean ====
section
/-! SUPPORT. The model's own tests. Expected values are those of spec/95_test_vectors.md; a test names its vector. The
second half has a witness for the hypotheses of each statement of Obligations.lean that has some. -/

namespace Sys2Proof.Tests

open Sys2Proof Sys2Proof.Machine

/-- A field of the next state; none when there is no next state. -/
def after {α : Type} (r : Result) (f : State → α) : Option α :=
  match r with
  | .next t => some (f t)
  | .fault _ => none
  | .refused _ => none

/-- One step on the word `w` stored at PC. -/
def runWord (w : Nat) (s : State) : Result := step (s.withFetchWord 16 w)

/-- The reset state with two registers set. -/
def regs2 (x : Reg) (a : Byte) (y : Reg) (b : Byte) : State := (State.reset.setReg x a).setReg y b

/-- The reset state at another PC. -/
def atPc (pc : Word) (s : State) : State := { s with pc := pc }

/-- The reset state with one key pressed. -/
def pressed (k : Nibble) : State := setKey k true State.reset

/-- The reset state with block_index_increment = true. -/
def incrementing : State := { State.reset with cfg := { Config.default with blockIndexIncrement := true } }

/-- The same state under OutOfRangeNotPressed. -/
def strictKeys (s : State) : State := { s with cfg := { s.cfg with keyIndexMode := .outOfRangeNotPressed } }

/-- The columns 0..9 of row 0. -/
def row0 (s : State) : List Bool := (List.range 10).map fun x => s.fb.pixel x 0

/-! ### Well-formedness: the check refuses an UNKNOWN whose word some row of the opcode map accepts -/

theorem test_wellFormed_refuses_recognised_words :
    Instr.wellFormed (.unknown 0x00E0) = false ∧ Instr.wellFormed (.unknown 0x5AB0) = false ∧
      Instr.wellFormed (.unknown 0x800E) = false ∧ Instr.wellFormed (.unknown 0xFF65) = false := by decide

theorem test_wellFormed_accepts_unrecognised_words :
    Instr.wellFormed (.unknown 0x0123) = true ∧ Instr.wellFormed (.unknown 0x5121) = true ∧
      Instr.wellFormed (.unknown 0xF00B) = true ∧ Instr.wellFormed (.drw 0xF 0xF 0) = true := by decide

/-! ### Decoding: a word written out bit by bit for every row (30_encoding.md R45), and the strict reading -/

theorem test_decode_control :
    decode 0b0000000011100000 = .cls ∧ decode 0b0000000011101110 = .ret ∧
      decode 0b0001_001000110100 = .jp 0x234 ∧ decode 0b0010_001100000000 = .call 0x300 ∧
      decode 0b1011_111111111110 = .jpV0 0xFFE := by decide

theorem test_decode_skips :
    decode 0b0011_0011_01000010 = .seImm 3 0x42 ∧ decode 0b0100_0011_01000010 = .sneImm 3 0x42 ∧
      decode 0b0101_0001_0010_0000 = .seReg 1 2 ∧ decode 0b1001_0001_0010_0000 = .sneReg 1 2 := by decide

theorem test_decode_loads :
    decode 0b0110_1010_00001011 = .ldImm 0xA 0x0B ∧ decode 0b0111_0010_00100000 = .addImm 2 0x20 ∧
      decode 0b1100_0011_00001111 = .rnd 3 0x0F ∧ decode 0b1010_001011110000 = .ldI 0x2F0 := by decide

theorem test_decode_alu :
    decode 0b1000_0001_1110_0000 = .ldReg 1 0xE ∧ decode 0b1000_0001_1110_0001 = .orReg 1 0xE ∧
      decode 0b1000_0001_1110_0010 = .andReg 1 0xE ∧ decode 0b1000_0001_1110_0011 = .xorReg 1 0xE ∧
      decode 0b1000_0001_1110_0100 = .addReg 1 0xE ∧ decode 0b1000_0001_1110_0101 = .sub 1 0xE ∧
      decode 0b1000_0001_1110_0110 = .shr 1 0xE ∧ decode 0b1000_0001_1110_0111 = .subn 1 0xE ∧
      decode 0b1000_0001_1110_1110 = .shl 1 0xE := by decide

theorem test_decode_display_and_keys :
    decode 0b1101_0001_0010_0101 = .drw 1 2 5 ∧ decode 0b1110_0100_10011110 = .skp 4 ∧
      decode 0b1110_0100_10100001 = .sknp 4 := by decide

theorem test_decode_misc :
    decode 0b1111_0001_00000111 = .ldVxDt 1 ∧ decode 0b1111_0001_00001010 = .ldVxK 1 ∧
      decode 0b1111_0001_00010101 = .ldDtVx 1 ∧ decode 0b1111_0001_00011000 = .ldStVx 1 ∧
      decode 0b1111_0001_00011110 = .addI 1 ∧ decode 0b1111_0001_00101001 = .ldF 1 ∧
      decode 0b1111_0001_00110011 = .ldB 1 ∧ decode 0b1111_0001_01010101 = .stRegs 1 ∧
      decode 0b1111_0001_01100101 = .ldRegs 1 := by decide

/-- T-DEC3 to T-DEC5, T-DEC8, T-DEC9, T-DEC11, T-DEC13, T-DEC15 and T-DEC16. -/
theorem test_decode_unknown :
    decode 0x0000 = .unknown 0x0000 ∧ decode 0x0123 = .unknown 0x0123 ∧ decode 0x00E1 = .unknown 0x00E1 ∧
      decode 0x5121 = .unknown 0x5121 ∧ decode 0x8008 = .unknown 0x8008 ∧ decode 0x800F = .unknown 0x800F ∧
      decode 0x912F = .unknown 0x912F ∧ decode 0xE09F = .unknown 0xE09F ∧ decode 0xF00B = .unknown 0xF00B := by
  decide

theorem test_decodeBytes_most_significant_first :
    decodeBytes [0x60, 0x0A, 0xFF] = .ok (.ldImm 0 0x0A, [0xFF]) ∧ decodeBytes [0x60] = .error .truncated := by decide

theorem test_decodeTableWord :
    decodeTableWord 16 0x8124 = some (.addReg 1 2) ∧ decodeTableWord 16 0x00EE = some .ret ∧
      decodeTableWord 16 0x0000 = some (.unknown 0) := by decide

theorem test_withFetchWord_is_fetched :
    (State.reset.withFetchWord 16 0xA2F0).fetchInstr = .ldI 0x2F0 ∧
      (State.withFetchWord { State.reset with status := .halted .stackUnderflow } 16 0x6001).status = .running := by
  decide

/-! ### The cycle (95_test_vectors.md, 2.2) -/

/-- S3: the bytes 60 0A at 0x200. -/
theorem test_load_then_step :
    after (boot Config.default [0x60, 0x0A] [.step]) (fun t => (t.reg 0, t.pc)) = some (0x0A, 0x202) := by decide

/-- R119, R122 and R123 in the middle of a run: a reset, a load of a shorter image and a step run the new program, and
nothing is left of the old one. -/
theorem test_reset_then_load_another :
    after (boot Config.default [0x60, 0x0A, 0x61, 0x0B] [.step, .tick, .reset, .load [0x62, 0x0C], .step])
      (fun t => ([0, 1, 2].map t.reg, t.pc, t.memRead 0x202)) = some ([0, 0, 0x0C], 0x202, 0) := by decide

/-- A load needs a reset with no step since, and an image that fits; ticks and key writes may stand between. -/
theorem test_keepsLoadContract :
    keepsLoadContract true [.load [0x60, 0x0A], .step, .reset, .tick, .setKey 3 true, .load [0x62, 0x0C], .step] =
        true ∧
      keepsLoadContract true [.step, .load [0x60, 0x0A]] = false ∧ keepsLoadContract false [.load []] = false := by
  decide

/-- T-CYC1, T-CYC3 and T-CYC4. -/
theorem test_pc_wraps :
    after (runWord 0x6001 (atPc 0xFFE State.reset)) (·.pc) = some 0x000 ∧
      after (runWord 0x3000 (atPc 0xFFE State.reset)) (·.pc) = some 0x002 ∧
      after (runWord 0x4000 (atPc 0xFFE State.reset)) (·.pc) = some 0x000 := by decide

/-- T-CYC2: the word at 0xFFF has its second byte at 0x000, in the font. -/
theorem test_fetch_wraps :
    after (step (atPc 0xFFF (State.reset.memWrite 0xFFF 0x60))) (fun t => (t.reg 0, t.pc)) = some (0xF0, 0x001) := by
  decide

/-- T-CYC5: an odd PC. -/
theorem test_odd_pc :
    after (runWord 0x6042 (atPc 0x201 State.reset)) (fun t => (t.reg 0, t.pc)) = some (0x42, 0x203) := by decide

/-- T-CYC8: a halted core does nothing. -/
theorem test_halted_step :
    after (step { State.reset.storeWordAtPc 0x6001 with status := .halted .stackUnderflow })
      (fun t => (t.reg 0, t.pc, t.status)) = some (0x00, 0x200, .halted .stackUnderflow) := by decide

/-! ### Control transfer (2.3) -/

/-- T-CTL1 and T-CTL3. -/
theorem test_ret :
    after (runWord 0x00EE { atPc 0x300 State.reset with stack := [0x204] }) (fun t => (t.stack, t.pc)) =
        some ([], 0x206) ∧
      after (runWord 0x00EE { atPc 0x300 State.reset with stack := [0xFFE] }) (·.pc) = some 0x000 := by decide

/-- S4 and T-CTL2. -/
theorem test_ret_underflow :
    after (runWord 0x00EE (atPc 0x300 State.reset)) (fun t => (t.stack, t.pc, t.status)) =
        some ([], 0x300, .halted .stackUnderflow) ∧
      stepReport ((atPc 0x300 State.reset).withFetchWord 16 0x00EE) = some (.fatal .stackUnderflow) := by decide

/-- T-CTL4 and T-CTL5. -/
theorem test_call :
    after (runWord 0x2300 (atPc 0x202 State.reset)) (fun t => (t.stack, t.pc)) = some ([0x202], 0x300) ∧
      after (runWord 0x2300 { atPc 0x202 State.reset with stack := List.replicate 15 0x200 })
        (fun t => (t.stack.length, t.stack.getLast?, t.pc)) = some (16, some 0x202, 0x300) := by decide

/-- T-CTL6. -/
theorem test_call_overflow :
    after (runWord 0x2300 { atPc 0x202 State.reset with stack := List.replicate 16 0x200 })
      (fun t => (t.stack, t.pc, t.status)) = some (List.replicate 16 0x200, 0x202, .halted .stackOverflow) := by
  decide

/-- T-CTL7 and T-CTL8. -/
theorem test_jp :
    after (runWord 0x1234 State.reset) (·.pc) = some 0x234 ∧ after (runWord 0x1200 State.reset) (·.pc) = some 0x200 := by
  decide

/-- T-CTL9 and T-CTL10. -/
theorem test_jpV0 :
    after (runWord 0xB300 (State.reset.setReg 0 0x10)) (·.pc) = some 0x310 ∧
      after (runWord 0xBFFF (State.reset.setReg 0 0xFF)) (·.pc) = some 0x0FE := by decide

/-- T-CTL12 and T-CTL13. -/
theorem test_seImm :
    after (runWord 0x3342 (State.reset.setReg 3 0x42)) (·.pc) = some 0x204 ∧
      after (runWord 0x3342 (State.reset.setReg 3 0x41)) (·.pc) = some 0x202 := by decide

/-- T-CTL14 and T-CTL15. -/
theorem test_sneImm :
    after (runWord 0x4342 (State.reset.setReg 3 0x41)) (·.pc) = some 0x204 ∧
      after (runWord 0x4342 (State.reset.setReg 3 0x42)) (·.pc) = some 0x202 := by decide

/-- T-CTL16 and T-CTL17. -/
theorem test_seReg :
    after (runWord 0x5120 (atPc 0x210 (regs2 1 7 2 7))) (·.pc) = some 0x214 ∧
      after (runWord 0x5550 (atPc 0x210 (State.reset.setReg 5 9))) (·.pc) = some 0x214 := by decide

/-- T-CTL18 and T-CTL19. -/
theorem test_sneReg :
    after (runWord 0x9120 (atPc 0x210 (regs2 1 7 2 8))) (·.pc) = some 0x214 ∧
      after (runWord 0x9550 (atPc 0x210 (State.reset.setReg 5 9))) (·.pc) = some 0x212 := by decide

/-- T-CYC6 and T-CYC9. -/
theorem test_unknown :
    stepReport (State.reset.withFetchWord 16 0x5A31) =
        some (.next { screenDirty := false, awaitingKey := false, unknown := some (0x200, 0x5A31) }) ∧
      after (runWord 0x5121 (atPc 0x210 (regs2 1 7 2 7))) (·.pc) = some 0x212 := by decide

/-! ### ALU (2.4) -/

/-- T-ALU1. -/
theorem test_ldImm : after (runWord 0x600A State.reset) (·.reg 0) = some 0x0A := by decide

/-- T-ALU2 and T-ALU4. -/
theorem test_addImm :
    after (runWord 0x7220 (regs2 2 0xF0 vf 0x55)) (fun t => (t.reg 2, t.reg vf)) = some (0x10, 0x55) ∧
      after (runWord 0x7F01 (State.reset.setReg vf 0xFF)) (·.reg vf) = some 0x00 := by decide

/-- T-ALU5. -/
theorem test_ldReg : after (runWord 0x8010 (State.reset.setReg 1 0x33)) (·.reg 0) = some 0x33 := by decide

/-- T-ALU6. -/
theorem test_orReg :
    after (runWord 0x8011 ((regs2 0 0xF0 1 0x0F).setReg vf 0x55)) (fun t => (t.reg 0, t.reg vf)) =
      some (0xFF, 0x55) := by decide

/-- T-ALU7. -/
theorem test_andReg :
    after (runWord 0x8012 ((regs2 0 0xF0 1 0x3C).setReg vf 0x55)) (fun t => (t.reg 0, t.reg vf)) =
      some (0x30, 0x55) := by decide

/-- T-ALU8 and T-ALU9. -/
theorem test_xorReg :
    after (runWord 0x8013 (regs2 0 0xF0 1 0x3C)) (·.reg 0) = some 0xCC ∧
      after (runWord 0x8553 (State.reset.setReg 5 0xA5)) (·.reg 5) = some 0x00 := by decide

/-- T-ALU10, T-ALU11 and T-ALU12. -/
theorem test_addReg :
    after (runWord 0x8014 (regs2 0 0x80 1 0x7F)) (fun t => (t.reg 0, t.reg vf)) = some (0xFF, 0) ∧
      after (runWord 0x8014 (regs2 0 0x80 1 0x80)) (fun t => (t.reg 0, t.reg vf)) = some (0x00, 1) ∧
      after (runWord 0x8004 (State.reset.setReg 0 0x90)) (fun t => (t.reg 0, t.reg vf)) = some (0x20, 1) := by decide

/-- T-ALU14 and T-ALU15: VF as the destination and as the source. -/
theorem test_addReg_vf :
    after (runWord 0x8F14 (regs2 vf 0x01 1 0x01)) (·.reg vf) = some 0 ∧
      after (runWord 0x80F4 (regs2 0 0x01 vf 0x01)) (fun t => (t.reg 0, t.reg vf)) = some (0x02, 0) := by decide

/-- T-ALU17, T-ALU19 and T-ALU20. -/
theorem test_sub :
    after (runWord 0x8015 (regs2 0 0x05 1 0x0A)) (fun t => (t.reg 0, t.reg vf)) = some (0xFB, 0) ∧
      after (runWord 0x8015 (regs2 0 0x42 1 0x42)) (fun t => (t.reg 0, t.reg vf)) = some (0x00, 1) ∧
      after (runWord 0x8FF5 State.reset) (·.reg vf) = some 1 := by decide

/-- S7, T-ALU21 and T-ALU23. -/
theorem test_shr :
    after (runWord 0x8016 (regs2 0 0x00 1 0x05)) (fun t => (t.reg 0, t.reg 1, t.reg vf)) = some (0x02, 0x05, 1) ∧
      after (runWord 0x8016 (regs2 0 0xFF 1 0x02)) (fun t => (t.reg 0, t.reg vf)) = some (0x01, 0) ∧
      after (runWord 0x8F16 (State.reset.setReg 1 0x03)) (·.reg vf) = some 1 := by decide

/-- T-ALU24 and T-ALU25. -/
theorem test_subn :
    after (runWord 0x8017 (regs2 0 0x05 1 0x0A)) (fun t => (t.reg 0, t.reg vf)) = some (0x05, 1) ∧
      after (runWord 0x8017 (regs2 0 0x0A 1 0x05)) (fun t => (t.reg 0, t.reg vf)) = some (0xFB, 0) := by decide

/-- S7, T-ALU26 and T-ALU27. -/
theorem test_shl :
    after (runWord 0x801E (regs2 0 0x00 1 0x81)) (fun t => (t.reg 0, t.reg 1, t.reg vf)) = some (0x02, 0x81, 1) ∧
      after (runWord 0x801E (regs2 0 0x01 1 0x40)) (fun t => (t.reg 0, t.reg vf)) = some (0x80, 0) ∧
      after (runWord 0x800E (State.reset.setReg 0 0x80)) (fun t => (t.reg 0, t.reg vf)) = some (0x00, 1) := by decide

/-- T-ALU28, T-ALU29 and T-ALU30, with the drawn byte given. -/
theorem test_rnd :
    after (rndWith 0xA7 3 0x0F State.reset) (·.reg 3) = some 0x07 ∧
      after (rndWith 0xFF 3 0x00 (State.reset.setReg 3 0x09)) (·.reg 3) = some 0x00 ∧
      after (rndWith 0x5A 3 0xFF State.reset) (fun t => (t.reg 3, t.pc, t.draws)) = some (0x5A, 0x202, 1) := by decide

/-! ### Index register and memory (2.5) -/

/-- T-MEM1. -/
theorem test_ldI : after (runWord 0xA2F0 State.reset) (·.i) = some 0x2F0 := by decide

/-- T-MEM3 and T-MEM4. -/
theorem test_addI :
    after (runWord 0xF21E ((regs2 2 0x01 vf 0x55).setI 0xFFF)) (fun t => (t.i, t.reg vf)) = some (0x000, 0x55) ∧
      after (runWord 0xF21E ((State.reset.setReg 2 0xFF).setI 0xFF0)) (·.i) = some 0x0EF := by decide

/-- T-MEM5, T-MEM6 and T-MEM7. -/
theorem test_ldF :
    after (runWord 0xF529 (State.reset.setReg 5 0x0C)) (·.i) = some 0x03C ∧
      after (runWord 0xF529 (State.reset.setReg 5 0x1A)) (·.i) = some 0x032 ∧
      after (runWord 0xF529 (State.reset.setReg 5 0xFF)) (·.i) = some 0x04B := by decide

/-- T-MEM8. -/
theorem test_ldB :
    after (runWord 0xF033 ((State.reset.setReg 0 0xFE).setI 0x300))
      (fun t => ([0x300, 0x301, 0x302].map t.memRead, t.i)) = some ([2, 5, 4], 0x300) := by decide

/-- T-MEM10: the store wraps onto the font. -/
theorem test_ldB_wraps :
    after (runWord 0xF033 ((State.reset.setReg 0 0x7B).setI 0xFFF)) (fun t => [0xFFF, 0x000, 0x001].map t.memRead) =
      some [1, 2, 3] := by decide

/-- T-MEM12 and T-MEM11. -/
theorem test_stRegs :
    after (runWord 0xF255 ((((incrementing.setReg 0 0x11).setReg 1 0x22).setReg 2 0x33).setI 0x400))
        (fun t => ([0x400, 0x401, 0x402, 0x403].map t.memRead, t.i)) = some ([0x11, 0x22, 0x33, 0], 0x403) ∧
      after (runWord 0xF255 ((regs2 0 0x11 1 0x22).setI 0x400)) (·.i) = some 0x400 := by decide

/-- T-MEM13: x = 0 stores V0 alone. -/
theorem test_stRegs_zero :
    after (runWord 0xF055 ((regs2 0 0x77 1 0x88).setI 0x400)) (fun t => [0x400, 0x401].map t.memRead) =
      some [0x77, 0x00] := by decide

/-- T-MEM15. -/
theorem test_ldRegs :
    after (runWord 0xF265 (((State.reset.memWriteBytes 0x400 [0x11, 0x22, 0x33]).setReg 3 0x99).setI 0x400))
      (fun t => ([0, 1, 2, 3].map t.reg, t.i)) = some ([0x11, 0x22, 0x33, 0x99], 0x400) := by decide

/-- T-MEM17: the load wraps into the font, in the compatibility mode. -/
theorem test_ldRegs_wraps :
    after (runWord 0xFF65 (incrementing.setI 0xFFF)) (fun t => (t.v.toList, t.i)) =
      some ([0x00, 0xF0, 0x90, 0x90, 0x90, 0xF0, 0x20, 0x60, 0x20, 0x20, 0x70, 0xF0, 0x10, 0xF0, 0x80, 0xF0], 0x00F) := by
  decide

/-! ### Display (2.6) -/

/-- T-DSP1. -/
theorem test_cls :
    after (runWord 0x00E0 (State.reset.setFb (State.reset.fb.setPixel 5 5 true)))
      (fun t => (t.fb, (t.fb.pixel 5 5))) = some (Framebuffer.clear, false) := by decide

/-- T-DSP9: a collision. -/
theorem test_drw_collision :
    after (runWord 0xD011 (State.reset.setFb ((State.reset.fb.setPixel 3 0 true).setPixel 4 0 true)))
        (fun t => (row0 t, t.reg vf)) =
      some ([true, true, true, false, true, false, false, false, false, false], 1) := by decide

/-- T-DSP4 (the horizontal wrap) and T-DSP8 (the coordinates are the old VF). -/
theorem test_drw_wraps :
    after (runWord 0xD011 (((regs2 0 62 1 30).memWrite 0x300 0xFF).setI 0x300))
        (fun t => ([62, 63, 0, 1, 2, 3, 4, 5, 6, 61].map fun x => t.fb.pixel x 30)) =
        some [true, true, true, true, true, true, true, true, false, false] ∧
      after (runWord 0xDF01 (State.reset.setReg vf 8)) (fun t => (row0 t, t.reg vf)) =
        some ([false, false, false, false, false, false, false, false, true, true], 0) := by decide

/-! ### Input and timers (2.7) -/

/-- T-KEY1, T-KEY4 and T-KEY5. -/
theorem test_skp :
    after (runWord 0xE49E (atPc 0x220 ((pressed 0xB).setReg 4 0x0B))) (·.pc) = some 0x224 ∧
      after (runWord 0xE49E (atPc 0x220 ((pressed 0xB).setReg 4 0x1B))) (·.pc) = some 0x224 ∧
      after (runWord 0xE49E (atPc 0x220 (strictKeys ((pressed 0xB).setReg 4 0x1B)))) (·.pc) = some 0x222 := by decide

/-- T-KEY3 and T-KEY6. -/
theorem test_sknp :
    after (runWord 0xE4A1 (atPc 0x220 (State.reset.setReg 4 0x0B))) (·.pc) = some 0x224 ∧
      after (runWord 0xE4A1 (atPc 0x220 (strictKeys ((pressed 0xB).setReg 4 0x1B)))) (·.pc) = some 0x224 := by decide

/-- T-KEY7. -/
theorem test_ldVxK_entry :
    after (runWord 0xF30A (atPc 0x230 State.reset)) (fun t => (t.wait, t.pc)) =
        some (some { x := 3, prev := Vector.replicate 16 false }, 0x230) ∧
      stepReport ((atPc 0x230 State.reset).withFetchWord 16 0xF30A) =
        some (.next { screenDirty := false, awaitingKey := true, unknown := none }) := by decide

/-- T-KEY11: the lowest of two new keys. -/
theorem test_ldVxK_waiting :
    after (step { atPc 0x230 (setKey 4 true (pressed 9)) with
        wait := some { x := 3, prev := Vector.replicate 16 false } }) (fun t => (t.reg 3, t.wait, t.pc)) =
      some (0x04, none, 0x232) := by decide

/-- T-KEY13. -/
theorem test_ldVxDt : after (runWord 0xF107 (State.reset.setDt 0x3C)) (·.reg 1) = some 0x3C := by decide

/-- T-KEY14. -/
theorem test_ldDtVx : after (runWord 0xF115 (State.reset.setReg 1 0x3C)) (·.dt) = some 0x3C := by decide

/-- T-KEY15. -/
theorem test_ldStVx : after (runWord 0xF218 (State.reset.setReg 2 0x05)) (·.st) = some 0x05 := by decide

/-- T-KEY16 and T-KEY17. -/
theorem test_tick :
    (tick (State.reset.setDt 1)).dt = 0 ∧ (tick State.reset).dt = 0 ∧
      (tick { State.reset.setDt 3 with status := .halted .stackOverflow }).dt = 2 := by decide

/-- T-RST1. -/
theorem test_reset :
    [0, 1, 2, 3, 4, 0x50].map State.reset.memRead = [0xF0, 0x90, 0x90, 0x90, 0xF0, 0x00] ∧
      State.reset.mem = [] ∧ Memory.wf Config.default State.reset.mem := by decide

/-- T-RST2. -/
theorem test_reset_from_halted :
    hostReset { State.reset.setReg 3 7 with status := .halted .stackUnderflow, stack := [0x204] } = State.reset := by
  decide

/-- The canonical form: a byte equal to the reset contents is not listed, and cells are sorted. -/
theorem test_memory_canonical :
    ((State.reset.memWrite 0x300 7).memWrite 0x200 5).mem = [(0x200, 5), (0x300, 7)] ∧
      ((State.reset.memWrite 0x300 7).memWrite 0x300 0).mem = [] ∧
      (State.reset.memWrite 0x000 0xF0).mem = [] := by decide

theorem test_load_refuses_oversized :
    load (List.replicate 3585 0) State.reset = .refused (.oversizedImage 3585) := by
  rw [load, List.length_replicate]; rfl

/-! ### Witnesses: concrete states and operands that meet the hypotheses of the statements, clause by clause -/

/-- The state in which the step of `runWord` runs. -/
def holding (w : Nat) (s : State) : State := s.withFetchWord 16 w

/-- Halted at a RET with an empty stack. -/
def haltedAtRet : State := { State.reset.storeWordAtPc 0x00EE with status := .halted .stackUnderflow }

/-- Halted at a CALL with a full stack. -/
def haltedAtCall : State :=
  { State.reset.storeWordAtPc 0x2200 with status := .halted .stackOverflow, stack := List.replicate 16 0x200 }

/-- Waiting at the F30A at 0x200, with no key pressed now or at the last sample. -/
def waitingAtF30A : State :=
  { State.reset.storeWordAtPc 0xF30A with wait := some { x := 3, prev := Vector.replicate 16 false } }

/-- A running state away from reset: an odd top PC, I at its bound, a stored byte and one stack entry. -/
def busy : State := { ((atPc 0xFFF (regs2 0 0xFF vf 0x80)).memWrite 0x300 7).setI 0xFFF with stack := [0xFFE] }

theorem witness_DecodeOfEncodeIsIdentity :
    Instr.wellFormed (.drw 0xF 0xF 0xF) = true ∧ Instr.wellFormed (.unknown 0xFFFF) = true := by decide

theorem witness_OpcodeRowsNeverOverlap :
    (patterns[0]).accepts 0x00E0 = true ∧ (patterns[33]).accepts 0xFF65 = true := by decide

theorem witness_UnknownExactlyWhenNoRowAccepts :
    (∀ p ∈ patterns, p.accepts 0xFFFF = false) ∧ (∃ p ∈ patterns, p.accepts 0xFF65 = true) := by decide

theorem witness_EachRowDecodesToItsTag_low :
    (0x1FFF : Word) &&& 0xF000 = 0x1000 ∧ (0x2FFF : Word) &&& 0xF000 = 0x2000 ∧
      (0x3FFF : Word) &&& 0xF000 = 0x3000 ∧ (0x4FFF : Word) &&& 0xF000 = 0x4000 ∧
      (0x5FF0 : Word) &&& 0xF00F = 0x5000 ∧ (0x6FFF : Word) &&& 0xF000 = 0x6000 ∧
      (0x7FFF : Word) &&& 0xF000 = 0x7000 ∧ (0x8FF0 : Word) &&& 0xF00F = 0x8000 ∧
      (0x8FF1 : Word) &&& 0xF00F = 0x8001 ∧ (0x8FF2 : Word) &&& 0xF00F = 0x8002 ∧
      (0x8FF3 : Word) &&& 0xF00F = 0x8003 ∧ (0x8FF4 : Word) &&& 0xF00F = 0x8004 ∧
      (0x8FF5 : Word) &&& 0xF00F = 0x8005 ∧ (0x8FF6 : Word) &&& 0xF00F = 0x8006 ∧
      (0x8FF7 : Word) &&& 0xF00F = 0x8007 ∧ (0x8FFE : Word) &&& 0xF00F = 0x800E := by decide

theorem witness_EachRowDecodesToItsTag_high :
    (0x9FF0 : Word) &&& 0xF00F = 0x9000 ∧ (0xAFFF : Word) &&& 0xF000 = 0xA000 ∧
      (0xBFFF : Word) &&& 0xF000 = 0xB000 ∧ (0xCFFF : Word) &&& 0xF000 = 0xC000 ∧
      (0xDFFF : Word) &&& 0xF000 = 0xD000 ∧ (0xEF9E : Word) &&& 0xF0FF = 0xE09E ∧
      (0xEFA1 : Word) &&& 0xF0FF = 0xE0A1 ∧ (0xFF07 : Word) &&& 0xF0FF = 0xF007 ∧
      (0xFF0A : Word) &&& 0xF0FF = 0xF00A ∧ (0xFF15 : Word) &&& 0xF0FF = 0xF015 ∧
      (0xFF18 : Word) &&& 0xF0FF = 0xF018 ∧ (0xFF1E : Word) &&& 0xF0FF = 0xF01E ∧
      (0xFF29 : Word) &&& 0xF0FF = 0xF029 ∧ (0xFF33 : Word) &&& 0xF0FF = 0xF033 ∧
      (0xFF55 : Word) &&& 0xF0FF = 0xF055 ∧ (0xFF65 : Word) &&& 0xF0FF = 0xF065 := by decide

theorem witness_StepRunsTheDecodedInstruction :
    (holding 0x8124 State.reset).status = .running ∧ (holding 0x8124 State.reset).wait = none ∧
      decodeBytes [(holding 0x8124 State.reset).memRead (holding 0x8124 State.reset).pc.toNat,
        (holding 0x8124 State.reset).memRead ((holding 0x8124 State.reset).pc.toNat + 1)] =
        .ok (.addReg 1 2, []) := by decide

/-- Also for EveryStepHasOneOfThreeOutcomes: a halted, a waiting and a running state, and a step that halts. -/
theorem witness_StepFetchesDecodesExecutes :
    haltedAtRet.status = .halted .stackUnderflow ∧
      (waitingAtF30A.status = .running ∧ waitingAtF30A.wait = some { x := 3, prev := Vector.replicate 16 false }) ∧
      (busy.status = .running ∧ busy.wait = none) ∧
      after (runWord 0x00EE State.reset) (·.status) = some (.halted .stackUnderflow) ∧
      after (runWord 0x6001 State.reset) (·.status) = some .running := by decide

theorem witness_EveryStepHasOneOfThreeOutcomes :
    stepReport (holding 0x6001 State.reset) =
        some (.next { screenDirty := false, awaitingKey := false, unknown := none }) ∧
      stepReport (holding 0x00EE State.reset) = some (.fatal .stackUnderflow) ∧
      stepReport haltedAtRet = some .halted := by decide

/-- CLS reports a dirty screen, and a waiting step with no new key still awaits. -/
theorem witness_StepReportsItsEffects :
    ((holding 0x00E0 State.reset).wait = none ∧ after (runWord 0x00E0 State.reset) (·.pc) = some 0x202 ∧
      stepReport (holding 0x00E0 State.reset) =
        some (.next { screenDirty := true, awaitingKey := false, unknown := none })) ∧
      (waitingAtF30A.wait ≠ none ∧ after (step waitingAtF30A) (·.pc) = some 0x200 ∧
        stepReport waitingAtF30A =
          some (.next { screenDirty := false, awaitingKey := true, unknown := none })) := by decide

theorem witness_UnknownWordIsAReportedNoOp :
    ((holding 0x5A31 State.reset).status = .running ∧ (holding 0x5A31 State.reset).wait = none ∧
      (holding 0x5A31 State.reset).fetchInstr = .unknown (holding 0x5A31 State.reset).fetchWord) ∧
      (opOf 0x00E1 = 0x0 ∧ (0x00E1 : Word) ≠ 0x00E0 ∧ (0x00E1 : Word) ≠ 0x00EE) := by decide

theorem witness_RetResumesAfterTheCall : busy.stack = [] ++ [0xFFE] := by decide

theorem witness_JpGoesToItsTarget : busy.pc.toNat = (0xFFF : Addr).toNat := by decide

/-- Also for CallThenRetComesBack and CallStackIsLastInFirstOut: room for one more entry. -/
theorem witness_CallPushesItsAddress :
    busy.stack.length < 16 ∧
      (List.replicate 15 (0x200 : Word)).length < 16 := by decide

theorem witness_skip_words :
    opOf 0x3FFF = 0x3 ∧ opOf 0x4FFF = 0x4 ∧ opOf 0x5FF0 = 0x5 ∧ opOf 0x5FF1 = 0x5 ∧ opOf 0x9FF0 = 0x9 ∧
      opOf 0x9FFF = 0x9 := by decide

theorem witness_CallThenRetComesBack :
    after (exec (.call 0x300) busy) (·.stack) = some (busy.stack ++ [0xFFF]) := by decide

theorem witness_FatalErrorWritesTheStatusAlone : haltedAtCall.stack.length = 16 ∧ State.reset.stack = [] := by decide

theorem witness_OnlyCallAndRetHaltTheCore :
    after (exec .ret State.reset) (·.status) = some (.halted .stackUnderflow) ∧
      after (exec (.call 0x200) { State.reset with stack := List.replicate 16 0x200 }) (·.status) =
        some (.halted .stackOverflow) ∧
      State.reset.status = .running := by decide

theorem witness_AddressOutOfRangeIsNeverRaised :
    after (transition .step (holding 0x00EE State.reset)) (·.status) = some (.halted .stackUnderflow) ∧
      (holding 0x00EE State.reset).status ≠ .halted .addressOutOfRange := by decide

/-- Each clause: an instruction that keeps the stack, a full, an empty and a one-entry stack, a step at depth 15. -/
theorem witness_CallStackIsLastInFirstOut :
    (after (exec (.jp 0x300) busy) (·.stack) = some busy.stack) ∧
      haltedAtCall.stack.length = 16 ∧ State.reset.stack = [] ∧ busy.stack = [] ++ [0xFFE] ∧
      after (runWord 0x2300 { State.reset with stack := List.replicate 15 0x200 }) (·.stack.length) = some 16 := by
  decide

theorem witness_HaltIsLeftOnlyByReset :
    haltedAtCall.status = .halted .stackOverflow ∧
      after (transition .step haltedAtCall) (·.status) = some (.halted .stackOverflow) ∧
      after (transition .tick haltedAtCall) (·.status) = some (.halted .stackOverflow) ∧
      after (transition .reset haltedAtCall) (·.status) = some .running := by decide

theorem witness_field_words :
    opOf 0x6FFF = 0x6 ∧ opOf 0xAFFF = 0xA ∧ (opOf 0xFF29 = 0xF ∧ nnOf 0xFF29 = 0x29) := by decide

theorem witness_FlaggedAluResultsAndFlags : (0xE : Reg) ≠ vf := by decide

theorem witness_RandomByteIsMasked : (0 : Byte) = 0 := rfl

/-- The canonical memory that BcdStore, BlockStore, EntryPoint and LoadWritesTheImageVerbatim assume. -/
theorem witness_memory_wf : Memory.wf busy.cfg busy.mem ∧ busy.mem ≠ [] := by decide

/-- Also for BlockLoad: both values of block_index_increment, and the last stored register. -/
theorem witness_BlockStore :
    Memory.wf busy.cfg busy.mem ∧ (0xF : Reg).toNat ≤ (0xF : Reg).toNat ∧ busy.cfg.blockIndexIncrement = false ∧
      incrementing.cfg.blockIndexIncrement = true := by decide

/-- The store of P6, at the end of the stored block. -/
theorem witness_StoredWordIsFetchedNext :
    Memory.wf (State.reset.setI 0x202).cfg (State.reset.setI 0x202).mem ∧ (1 : Reg).toNat = (0 : Reg).toNat + 1 ∧
      (1 : Reg).toNat ≤ (1 : Reg).toNat ∧
      mask12 ((State.reset.setI 0x202).pc.toNat + 2) = (State.reset.setI 0x202).indexed (0 : Reg).toNat := by decide

theorem pixel_clear (x y : Nat) : State.reset.fb.pixel x y = false := by
  simp [State.reset, State.resetWith, Framebuffer.pixel]

/-- With I = 0 and V0 = V1 = 0, D011 covers (3, 0), the last pixel of the glyph's first row. -/
theorem covers_last : SpriteCovers State.reset 0 1 1 3 0 := ⟨0, 3, by decide⟩

/-- It does not cover (4, 0). -/
theorem covers_not : ¬SpriteCovers State.reset 0 1 1 4 0 := by
  rintro ⟨r, c, hr, hc, hb, hx, -⟩
  have hr0 : r = 0 := by simpa using hr
  subst hr0
  have hc4 : c = 4 := by
    have e : (State.reset.reg 0).toNat = 0 := by decide
    omega
  subst hc4
  exact absurd hb (by decide)

/-- Each clause: a covered and an uncovered pixel, a draw that collides and one that does not. -/
theorem witness_DrawFlipsPixelsAndReportsCollision :
    SpriteCovers State.reset 0 1 1 3 0 ∧ ¬SpriteCovers State.reset 0 1 1 4 0 ∧
      (∃ px py, SpriteCovers (State.reset.setFb (State.reset.fb.setPixel 3 0 true)) 0 1 1 px py ∧
        (State.reset.setFb (State.reset.fb.setPixel 3 0 true)).fb.pixel px py = true) ∧
      ¬∃ px py, SpriteCovers State.reset 0 1 1 px py ∧ State.reset.fb.pixel px py = true :=
  ⟨covers_last, covers_not, ⟨3, 0, ⟨0, 3, by decide⟩, by decide⟩, fun ⟨x, y, _, h⟩ => by simp [pixel_clear] at h⟩

/-- The second draw from the first one's next state, and each of the two clauses on VF. -/
theorem witness_DoubleDrawRestoresTheScreen :
    (∃ t, exec (.drw 0 1 1) State.reset = .next t ∧ t.reg 0 = State.reset.reg 0 ∧ t.reg 1 = State.reset.reg 1 ∧
      t.i = State.reset.i ∧ (∀ k, k < (1 : Nibble).toNat → t.memRead (0 + k) = State.reset.memRead (0 + k))) ∧
      (∃ px py, SpriteCovers State.reset 0 1 1 px py ∧ State.reset.fb.pixel px py = false) ∧
      ¬∃ px py, SpriteCovers State.reset 0 1 0 px py ∧ State.reset.fb.pixel px py = false :=
  ⟨⟨_, rfl, by decide, by decide, by decide, by decide⟩, ⟨3, 0, covers_last, pixel_clear 3 0⟩,
    fun ⟨_, _, ⟨r, _, hr, _⟩, _⟩ => by simp at hr⟩

/-- Each clause: LowNibble with Vx > 15, either mode with Vx = 15, OutOfRangeNotPressed with Vx = 16. -/
theorem witness_KeySkips :
    (State.reset.cfg.keyIndexMode = .lowNibble ∧ (0xF : Nibble).toNat = ((State.reset.setReg 0 0xFF).reg 0).toNat % 16) ∧
      (((strictKeys State.reset).setReg 0 15).reg 0).toNat ≤ 15 ∧
      ((strictKeys State.reset).cfg.keyIndexMode = .outOfRangeNotPressed ∧
        (((strictKeys State.reset).setReg 0 16).reg 0).toNat > 15) := by decide

/-- Key F alone is newly pressed. -/
theorem witness_WaitForKeyTakesANewlyPressedKey :
    State.reset.status = .running ∧ LowestFresh (pressed 0xF) State.reset.key 0xF := by
  refine ⟨rfl, by decide, ?_⟩
  decide

theorem witness_WaitingStepWithoutAFreshKeyResamples :
    waitingAtF30A.status = .running ∧ waitingAtF30A.wait = some { x := 3, prev := Vector.replicate 16 false } ∧
      (∀ k, waitingAtF30A.freshKey (Vector.replicate 16 false) k = false) := by decide

theorem witness_WaitingStepTakesTheLowestFreshKey :
    (setKey 0 true waitingAtF30A).status = .running ∧
      (setKey 0 true waitingAtF30A).wait = some { x := 3, prev := Vector.replicate 16 false } ∧
      LowestFresh (setKey 0 true waitingAtF30A) (Vector.replicate 16 false) 0 := by
  refine ⟨rfl, rfl, by decide, ?_⟩
  decide

theorem witness_InstructionsWriteOnlyTheirParts : after (exec (.ldB 3) busy) (·.pc) = some 0x001 := by decide

theorem witness_VfWriters :
    after (exec (.ldRegs 0xE) busy) (·.reg vf) = some 0x80 ∧ mayWriteVf (.ldRegs 0xE) = false := by decide

/-- I changes under Annn, and under Fx65 in the compatibility mode. -/
theorem witness_IndexWriters :
    after (exec (.ldI 0xFFF) State.reset) (fun t => t.i != State.reset.i) = some true ∧
      after (exec (.ldRegs 0xF) incrementing) (fun t => t.i != incrementing.i) = some true := by decide

theorem witness_LatchIsReadOnly :
    (holding 0x6001 State.reset).wait = none ∧ readsLatch (holding 0x6001 State.reset).fetchInstr = false ∧
      after (runWord 0x6001 State.reset) (·.reg 0) = some 0x01 := by decide

theorem witness_SoundTimerIsNeverRead : after (runWord 0xF018 busy) (·.st) = some 0xFF := by decide

theorem busy_entries : ∀ a ∈ busy.stack, a.toNat ≤ 0xFFF := by
  intro a ha
  rw [show busy.stack = [0xFFE] from rfl, List.mem_singleton] at ha
  subst ha
  decide

theorem waitingAtF30A_entries : ∀ a ∈ waitingAtF30A.stack, a.toNat ≤ 0xFFF := by
  intro a ha
  rw [show waitingAtF30A.stack = [] from rfl] at ha
  cases ha

theorem haltedAtCall_entries : ∀ a ∈ haltedAtCall.stack, a.toNat ≤ 0xFFF := by
  intro a ha
  rw [show haltedAtCall.stack = List.replicate 16 0x200 from rfl] at ha
  rw [List.eq_of_mem_replicate ha]
  decide

theorem witness_StepKeepsTheInvariant : busy.Inv ∧ after (step busy) (·.pc) = some 0x001 :=
  ⟨⟨by decide, by decide, by decide, busy_entries, by decide⟩, by decide⟩

theorem waitingAtF30A_wait : waitingAtF30A.wait = some { x := 3, prev := Vector.replicate 16 false } := by decide

theorem haltedAtCall_wait : haltedAtCall.wait = none := by decide

theorem witness_StepKeepsTheWaitAtItsFx0A :
    waitingAtF30A.WaitInv ∧ waitingAtF30A.wait.isSome = true ∧ after (step waitingAtF30A) (·.pc) = some 0x200 := by
  refine ⟨fun w hw => ?_, by decide, by decide⟩
  rw [waitingAtF30A_wait] at hw
  cases hw
  exact ⟨by decide, by decide⟩

/-- One state for each fatal error that occurs. -/
theorem witness_StepKeepsTheHaltPrecise :
    haltedAtRet.HaltInv ∧ haltedAtCall.HaltInv ∧ after (step haltedAtCall) (·.pc) = some 0x200 :=
  ⟨⟨by decide, by decide⟩, ⟨by decide, 0x200, by decide⟩, by decide⟩

theorem haltedAtCall_waitInv : haltedAtCall.WaitInv := by
  intro w h
  rw [haltedAtCall_wait] at h
  cases h

theorem waitingAtF30A_haltInv : waitingAtF30A.HaltInv := by
  have h : waitingAtF30A.status = .running := by decide
  rw [State.HaltInv, h]; trivial

/-- A waiting state and a halted state have all three invariants. -/
theorem witness_EveryInterleavingKeepsTheInvariants :
    (waitingAtF30A.Inv ∧ waitingAtF30A.WaitInv ∧ waitingAtF30A.HaltInv) ∧
      (haltedAtCall.Inv ∧ haltedAtCall.WaitInv ∧ haltedAtCall.HaltInv) :=
  ⟨⟨⟨by decide, by decide, by decide, waitingAtF30A_entries, by decide⟩, witness_StepKeepsTheWaitAtItsFx0A.1,
      waitingAtF30A_haltInv⟩,
    ⟨⟨by decide, by decide, by decide, haltedAtCall_entries, by decide⟩, haltedAtCall_waitInv,
      witness_StepKeepsTheHaltPrecise.2.1⟩⟩

/-- The contract's hypotheses: a run that starts fresh from reset, and one that does not start fresh. -/
theorem witness_EveryInterleavingKeepsTheInvariants_runs :
    (State.reset.status = .running ∧ State.reset.wait = none) ∧
      keepsLoadContract true [.load [0xF3, 0x0A], .step, .reset, .load [0x00, 0xEE], .step, .tick] = true ∧
      keepsLoadContract false [.step, .readFb, .reset, .load [0x00, 0xEE], .step, .readTimers] = true := by decide

/-- The longest image, and its last byte; also for ResetThenLoadStartsANewProgram. -/
theorem witness_LoadWritesTheImageVerbatim :
    (List.replicate 3584 (0 : Byte)).length ≤ 3584 ∧ 3583 < (List.replicate 3584 (0 : Byte)).length ∧
      (List.replicate 3585 (0 : Byte)).length > 3584 := by
  simp only [List.length_replicate]
  omega

/-- Reset memory at the ends of the reserved area, and a pixel at the corner. -/
theorem witness_ResetState_and_HostOperations :
    (0x050 ≤ 0x050 ∧ 0x050 ≤ 0xFFF) ∧ (0x050 ≤ 0xFFF ∧ 0xFFF ≤ 0xFFF) ∧ (63 < 64 ∧ 31 < 32) := by decide

end Sys2Proof.Tests
end

/-! SUPPORT. What any step answers and reports (40_cycle.md R53, R107), and from it the outcomes of 00_scope.md R10. -/

namespace Sys2Proof.Machine

/-! ### Every meaning answers a next state -/

/-- The sequencer ends a step in a next state and leaves the status to the arm. -/
theorem finish_next_status (s : State) (k : Seq) : ∃ t, finish s k = .next t ∧ t.status = s.status :=
  ⟨s.advance k, rfl, s.advance_status k⟩

/-- An instruction answers a next state: the status is as it was, or it alone became halted (R107). -/
theorem exec_next (i : Instr) (s : State) :
    ∃ t, exec i s = .next t ∧ (t.status = s.status ∨ ∃ e, t = { s with status := .halted e }) := by
  rcases exec_cases i s with ⟨u, k, hexec, hwrites, -⟩ | ⟨-, -, hexec⟩ | ⟨-, -, hexec⟩
  · obtain ⟨t, hfinish, hstatus⟩ := finish_next_status u k
    exact ⟨t, hexec.trans hfinish, .inl (hstatus.trans hwrites.status_eq)⟩
  · exact ⟨_, hexec, .inr ⟨.stackOverflow, rfl⟩⟩
  · exact ⟨_, hexec, .inr ⟨.stackUnderflow, rfl⟩⟩

/-- A waiting step answers a next state and halts nothing (R102). -/
theorem waitStep_next (w : Awaiting) (s : State) : ∃ t, waitStep w s = .next t ∧ t.status = s.status := by
  rcases waitStep_cases w s with ⟨-, hwait⟩ | ⟨k, -, hwait⟩
  · rw [hwait]; exact finish_next_status _ _
  · rw [hwait]; exact finish_next_status _ _

/-! ### The step of a running core -/

/-- A running core's step answers a next state, which is running or differs in a halted status alone, and reports what
`reportAfter` makes of it. -/
theorem step_of_running {s : State} (h : s.status = .running) :
    ∃ t d ev, step s = .next t ∧ stepReport s = some (reportAfter d ev t) ∧
      (t.status = .running ∨ ∃ e, t = { s with status := .halted e }) := by
  obtain hw | ⟨w, hw⟩ := Option.eq_none_or_eq_some s.wait
  · obtain ⟨t, hexec, ht⟩ := exec_next s.fetchInstr s
    exact ⟨t, _, _, (step_running h hw).trans hexec, stepReport_running h hw hexec, ht.imp_left (Eq.trans · h)⟩
  · obtain ⟨t, hwait, ht⟩ := waitStep_next w s
    exact ⟨t, _, _, (step_waiting h hw).trans hwait, stepReport_waiting h hw hwait, .inl (ht.trans h)⟩

/-- Settles O9, by the core's status before the step and, for a running core, after it. -/
theorem everyStepHasOneOfThreeOutcomes : Obligations.EveryStepHasOneOfThreeOutcomes := by
  intro s
  cases h : s.status with
  | halted e =>
    exact ⟨s, .halted, step_halted h, stepReport_halted h, by simp, by simp, fun _ => ⟨⟨e, rfl⟩, rfl⟩⟩
  | running =>
    obtain ⟨t, d, ev, hstep, hreport, hrun | ⟨e, rfl⟩⟩ := step_of_running h
    · rw [reportAfter_running hrun] at hreport
      exact ⟨t, _, hstep, hreport, fun _ _ => ⟨rfl, hrun⟩, by simp, by simp⟩
    · rw [reportAfter_halted rfl] at hreport
      exact ⟨_, _, hstep, hreport, by simp, by simp, by simp⟩

end Sys2Proof.Machine

/-! SUPPORT. What any step can leave in the next state (40_cycle.md R53), and from it the call stack of 10_state.md R17
and the input latch of R22. -/

namespace Sys2Proof.Machine

variable {s t : State} {i : Instr}

/-! ### What a step leaves in the next state -/

/-- An instruction's next state has its arm's writes and a moved PC, or differs in a halted status alone. -/
theorem exec_writes (h : exec i s = .next t) :
    (∃ u k, ArmWrites s u ∧ t = u.advance k) ∨ ∃ e, t = { s with status := .halted e } := by
  rcases exec_cases i s with ⟨u, k, hexec, hwrites, -⟩ | ⟨-, -, hexec⟩ | ⟨-, -, hexec⟩
  · exact .inl ⟨u, k, hwrites, finish_eq_next (hexec ▸ h)⟩
  · exact .inr ⟨_, raiseFatal_eq_next s (hexec ▸ h)⟩
  · exact .inr ⟨_, raiseFatal_eq_next s (hexec ▸ h)⟩

theorem setWait_armWrites (s : State) (w : Option Awaiting) : ArmWrites s (s.setWait w) :=
  ⟨rfl, rfl, rfl, rfl, .inl rfl, id, .inl rfl⟩

/-- A waiting step's writes are ones that an arm could make. -/
theorem waitStep_writes {w : Awaiting} (h : waitStep w s = .next t) :
    ∃ u k, ArmWrites s u ∧ t = u.advance k := by
  rcases waitStep_cases w s with ⟨-, hwait⟩ | ⟨k, -, hwait⟩ <;> rw [hwait] at h
  · exact ⟨_, _, setWait_armWrites s _, finish_eq_next h⟩
  · exact ⟨_, _, (setReg_armWrites s _ _).trans (setWait_armWrites _ _) rfl, finish_eq_next h⟩

/-- A step's next state has an arm's writes and a moved PC, or has a halted status and is otherwise as before. -/
theorem step_writes (h : step s = .next t) :
    (∃ u k, ArmWrites s u ∧ t = u.advance k) ∨ ∃ e, t = { s with status := .halted e } := by
  rcases step_cases s with ⟨⟨e, hhalted⟩, hstep⟩ | ⟨-, w, -, hstep⟩ | ⟨-, -, hstep⟩ <;> rw [hstep] at h
  · cases h; exact .inr ⟨e, hhalted ▸ rfl⟩
  · exact .inl (waitStep_writes h)
  · exact exec_writes h

/-! ### The call stack (10_state.md R17) -/

theorem exec_call_full (h : s.stack.length = 16) (nnn : Addr) :
    exec (.call nnn) s = .next { s with status := .halted .stackOverflow } := by
  simp [exec, execCall, push_full s h, raiseFatal]

/-- Every instruction but CALL and RET leaves the stack alone. -/
theorem exec_stack (h : exec i s = .next t) (hcall : ∀ nnn, i ≠ .call nnn) (hret : i ≠ .ret) :
    t.stack = s.stack := by
  cases i with
  | call nnn => exact absurd rfl (hcall nnn)
  | ret => exact absurd rfl hret
  | ldB x => rw [finish_eq_next h]; simp
  | stRegs x => rw [finish_eq_next h]; simp
  | ldRegs x => rw [finish_eq_next h]; simp
  | _ => rw [finish_eq_next h]; rfl

/-- An arm pushes only below the bound. -/
theorem ArmWrites.depth_le {u : State} (hw : ArmWrites s u) (hs : s.stack.length ≤ 16) : u.stack.length ≤ 16 := by
  obtain hkept | ⟨hroom, hpushed⟩ | ⟨a, hpopped⟩ := hw.stack_eq
  · rwa [hkept]
  · rw [hpushed, List.length_append, List.length_singleton]; omega
  · rw [hpopped, List.length_append] at hs; omega

/-- A step keeps the bound of the stack. -/
theorem step_depth_le (hs : s.stack.length ≤ 16) (h : step s = .next t) : t.stack.length ≤ 16 := by
  obtain ⟨u, k, hwrites, rfl⟩ | ⟨e, rfl⟩ := step_writes h
  · exact hwrites.depth_le hs
  · exact hs

/-- Settles O23: the stack by instruction, and its bound by what any step can write. -/
theorem callStackIsLastInFirstOut : Obligations.CallStackIsLastInFirstOut :=
  ⟨fun _ _ _ => exec_stack,
   fun s nnn h => ⟨_, s.pc, exec_call_room (Nat.ne_of_lt h) nnn, rfl⟩,
   fun _ nnn h => ⟨_, exec_call_full h nnn, rfl, rfl⟩,
   fun _ _ _ h => ⟨_, exec_ret_top h, rfl⟩,
   fun _ h => ⟨_, exec_ret_empty h, h, rfl⟩,
   fun _ _ => step_depth_le,
   rfl⟩

/-! ### The input latch (10_state.md R22) -/

/-- No step writes the latch. -/
theorem step_key (h : step s = .next t) : t.key = s.key := by
  obtain ⟨u, k, hwrites, rfl⟩ | ⟨e, rfl⟩ := step_writes h
  · exact hwrites.key_eq
  · rfl

/-- set_key writes the one key (20_memory.md R40). -/
theorem setKey_keyAt (k j : Nibble) (b : Bool) : (setKey k b s).keyAt j = if j = k then b else s.keyAt j := by
  simp only [State.keyAt, setKey, Vector.getElem_set, BitVec.toNat_inj, eq_comm (a := k)]

/-- The state with another latch in it. -/
def State.withKey (s : State) (latch : Vector Bool 16) : State := { s with key := latch }

theorem memWriteBytes_withKey (latch : Vector Bool 16) (a : Nat) (bs : List Byte) :
    (s.withKey latch).memWriteBytes a bs = (s.memWriteBytes a bs).withKey latch := by
  induction bs generalizing s a with
  | nil => rfl
  | cons b bs ih => exact ih (s := s.memWrite a b) (a + 1)

theorem blockIndexUpdate_withKey (latch : Vector Bool 16) (x : Reg) :
    (s.withKey latch).blockIndexUpdate x = (s.blockIndexUpdate x).withKey latch := by
  rw [State.blockIndexUpdate_eq, State.blockIndexUpdate_eq, apply_ite (State.withKey · latch)]
  rfl

/-- Under an instruction that does not read the latch, another latch gives the same next state but for the latch: only
the calls and the memory transfers need an argument, every other arm computes the same without looking at KEY. -/
theorem exec_withKey (hreads : readsLatch i = false) (h : exec i s = .next t) (latch : Vector Bool 16) :
    exec i (s.withKey latch) = .next (t.withKey latch) := by
  cases i with
  | skp x => cases hreads
  | sknp x => cases hreads
  | ldVxK x => cases hreads
  | call nnn =>
    by_cases hfull : s.stack.length = 16
    · rw [exec_call_full hfull] at h
      cases h; exact exec_call_full (s := s.withKey latch) hfull nnn
    · rw [exec_call_room hfull] at h
      cases h; exact exec_call_room (s := s.withKey latch) hfull nnn
  | ret =>
    rcases List.eq_nil_or_concat' s.stack with hempty | ⟨l, a, htop⟩
    · rw [exec_ret_empty hempty] at h
      cases h; exact exec_ret_empty (s := s.withKey latch) hempty
    · rw [exec_ret_top htop] at h
      cases h; exact exec_ret_top (s := s.withKey latch) htop
  | ldB x =>
    rw [finish_eq_next h]
    change finish ((s.withKey latch).memWriteBytes s.i.toNat (bcdDigits (s.reg x))) .seq = _
    rw [memWriteBytes_withKey]; rfl
  | stRegs x =>
    rw [finish_eq_next h]
    change finish (((s.withKey latch).memWriteBytes s.i.toNat (s.regsUpTo x)).blockIndexUpdate x) .seq = _
    rw [memWriteBytes_withKey, blockIndexUpdate_withKey]; rfl
  | ldRegs x =>
    rw [finish_eq_next h]
    change finish (((s.loadRegs s.i.toNat x).withKey latch).blockIndexUpdate x) .seq = _
    rw [blockIndexUpdate_withKey]; rfl
  | _ => rw [finish_eq_next h]; rfl

/-- The same of a step that does not wait: the fetch does not read the latch either. -/
theorem step_withKey (hwait : s.wait = none) (hreads : readsLatch s.fetchInstr = false) (h : step s = .next t)
    (latch : Vector Bool 16) : step (s.withKey latch) = .next (t.withKey latch) := by
  cases hstatus : s.status with
  | halted e =>
    rw [step_halted hstatus] at h
    cases h; exact step_halted (s := s.withKey latch) hstatus
  | running =>
    rw [step_running hstatus hwait] at h
    exact (step_running (s := s.withKey latch) hstatus hwait).trans (exec_withKey hreads h latch)

theorem reset_keyAt (k : Nibble) : State.reset.keyAt k = false := Vector.getElem_replicate k.isLt

/-- Settles O49: no step writes the latch, and one that runs no reader of it does not depend on it. -/
theorem latchIsReadOnly : Obligations.LatchIsReadOnly :=
  ⟨fun _ _ => step_key,
   tick_key,
   fun _ => setKey_keyAt,
   fun _ _ latch hwait hreads h => step_withKey hwait hreads h latch,
   reset_keyAt⟩

end Sys2Proof.Machine

/-! SUPPORT. The definition of a step branch by branch (40_cycle.md R53), and the unknown word as a reported no-op
(R62). -/

namespace Sys2Proof.Machine

variable {s t : State}

/-! ### What a running core's step reports (40_cycle.md R53) -/

/-- A step of a running core that leaves it halted changed the status alone and reports the error. -/
theorem step_into_halt (h : s.status = .running) (hstep : step s = .next t) {e : FatalCode}
    (he : t.status = .halted e) : t = { s with status := .halted e } ∧ stepReport s = some (.fatal e) := by
  obtain ⟨u, d, ev, hnext, hreport, hu⟩ := step_of_running h
  obtain rfl : u = t := Host.Outcome.next.inj (hnext.symm.trans hstep)
  rw [reportAfter_halted he] at hreport
  obtain hrun | ⟨c, rfl⟩ := hu
  · rw [hrun] at he; cases he
  · cases he; exact ⟨rfl, hreport⟩

/-- A step of a running core that leaves it running reports Next. -/
theorem step_stays_running (h : s.status = .running) (hstep : step s = .next t) (ht : t.status = .running) :
    ∃ f, stepReport s = some (.next f) := by
  obtain ⟨u, d, ev, hnext, hreport, -⟩ := step_of_running h
  obtain rfl : u = t := Host.Outcome.next.inj (hnext.symm.trans hstep)
  exact ⟨_, hreport.trans (congrArg some (reportAfter_running ht))⟩

/-- Settles O8, by the three branches of the step and, for a running core, its status afterwards. -/
theorem stepFetchesDecodesExecutes : Obligations.StepFetchesDecodesExecutes := fun _ =>
  ⟨fun _ h => ⟨step_halted h, stepReport_halted h⟩,
   fun h _ => step_waiting h,
   step_running,
   fun h _ hstep => ⟨fun _ => step_into_halt h hstep, step_stays_running h hstep⟩⟩

/-! ### The unknown word (40_cycle.md R62) -/

/-- The sequencer's kind Seq moves PC on by one word. -/
theorem advance_seq_pcPlus (s : State) : PcPlus 2 s (s.advance .seq) := addr16_toNat _

/-- The sequencer writes PC alone. -/
theorem advance_frameBut (s : State) (k : Seq) : FrameBut [] s (s.advance k) := by
  refine ⟨fun p _ => ?_, rfl, rfl⟩
  cases p with
  | regs | memory => exact fun _ => rfl
  | screen => exact fun _ _ => rfl
  | index | stack | delay | sound | waiting | status | draws => rfl

theorem exec_unknown (w : Word) (s : State) : exec (.unknown w) s = .next (s.advance .seq) := rfl

/-- A step at an unknown word reports the event, and no other effect. -/
theorem stepReport_unknown {w : Word} (h : s.status = .running) (hw : s.wait = none)
    (hf : s.fetchInstr = .unknown w) :
    stepReport s = some (.next { screenDirty := false, awaitingKey := false, unknown := some (s.pc, w) }) := by
  have hexec : exec s.fetchInstr s = .next (s.advance .seq) := by rw [hf, exec_unknown]
  rw [stepReport_running h hw hexec, reportAfter_running (by simp [h]), hf]
  simp [hw, marksScreenDirty, unknownEvent]

/-- The major opcode 0 has no other words than 00E0 and 00EE (30_encoding.md R46, D32). -/
theorem decode_zero_unknown {w : Word} (hop : opOf w = 0x0) (hcls : w ≠ 0x00E0) (hret : w ≠ 0x00EE) :
    decode w = .unknown w := by
  rw [decode, if_pos hop, if_neg hcls, if_neg hret]

/-- Settles O12: the meaning of an unknown word, the report of a step at one, and the 0nnn words. -/
theorem unknownWordIsAReportedNoOp : Obligations.UnknownWordIsAReportedNoOp :=
  ⟨fun w s => ⟨_, exec_unknown w s, advance_seq_pcPlus s, advance_frameBut s .seq⟩,
   fun _ => stepReport_unknown,
   fun _ => decode_zero_unknown⟩

end Sys2Proof.Machine

/-! SUPPORT. The sequencer's kind Skip (40_cycle.md R60), and from it the conditional skips of 41_control_flow.md R69 to
R72. -/

namespace Sys2Proof.Machine

variable (s : State)

/-! ### The sequencer's kind Skip (40_cycle.md R60) -/

/-- PC moves on by two words when the condition holds and by one when it does not. -/
theorem advance_skip_pcPlus (c : Bool) : PcPlus (if c then 4 else 2) s (s.advance (.skip c)) := by
  cases c with
  | true => exact addr16_toNat (s.pc.toNat + 4)
  | false => exact addr16_toNat (s.pc.toNat + 2)

theorem advance_skip_eq_pcPlus (a b : Byte) : PcPlus (if a = b then 4 else 2) s (s.advance (.skip (a == b))) := by
  simpa only [beq_iff_eq] using advance_skip_pcPlus s (a == b)

theorem advance_skip_ne_pcPlus (a b : Byte) : PcPlus (if a = b then 2 else 4) s (s.advance (.skip (a != b))) := by
  simpa only [bne_iff_ne, ite_not] using advance_skip_pcPlus s (a != b)

/-! ### The immediate skips (41_control_flow.md R69, R70) -/

theorem decode_three {w : Word} (hop : opOf w = 0x3) : decode w = .seImm (xOf w) (nnOf w) := by
  simp [decode, hop]

theorem decode_four {w : Word} (hop : opOf w = 0x4) : decode w = .sneImm (xOf w) (nnOf w) := by
  simp [decode, hop]

theorem exec_seImm (x : Reg) (nn : Byte) :
    exec (.seImm x nn) s = .next (s.advance (.skip (s.reg x == nn))) := rfl

theorem exec_sneImm (x : Reg) (nn : Byte) :
    exec (.sneImm x nn) s = .next (s.advance (.skip (s.reg x != nn))) := rfl

/-- Settles O17: the words of both skips, and each as the sequencer's Skip on its condition. -/
theorem immediateSkips : Obligations.ImmediateSkips :=
  ⟨fun _ => decode_three,
   fun _ => decode_four,
   fun s x nn => ⟨_, exec_seImm s x nn, advance_skip_eq_pcPlus s (s.reg x) nn, advance_frameBut s _⟩,
   fun s x nn => ⟨_, exec_sneImm s x nn, advance_skip_ne_pcPlus s (s.reg x) nn, advance_frameBut s _⟩⟩

/-! ### The register skips (41_control_flow.md R71, R72) -/

/-- The low nibble is matched strictly (D16, log 14). -/
theorem decode_five {w : Word} (hop : opOf w = 0x5) :
    decode w = if nOf w = 0x0 then .seReg (xOf w) (yOf w) else .unknown w := by
  simp [decode, hop]

/-- The low nibble is matched strictly (D16, log 14). -/
theorem decode_nine {w : Word} (hop : opOf w = 0x9) :
    decode w = if nOf w = 0x0 then .sneReg (xOf w) (yOf w) else .unknown w := by
  simp [decode, hop]

theorem exec_seReg (x y : Reg) :
    exec (.seReg x y) s = .next (s.advance (.skip (s.reg x == s.reg y))) := rfl

theorem exec_sneReg (x y : Reg) :
    exec (.sneReg x y) s = .next (s.advance (.skip (s.reg x != s.reg y))) := rfl

/-- Settles O18: the words of both skips, and each as the sequencer's Skip on its condition. -/
theorem registerSkips : Obligations.RegisterSkips :=
  ⟨fun _ => decode_five,
   fun _ => decode_nine,
   fun s x y => ⟨_, exec_seReg s x y, advance_skip_eq_pcPlus s (s.reg x) (s.reg y), advance_frameBut s _⟩,
   fun s x y => ⟨_, exec_sneReg s x y, advance_skip_ne_pcPlus s (s.reg x) (s.reg y), advance_frameBut s _⟩⟩

end Sys2Proof.Machine

/-! SUPPORT. Frames of register writes that end in the sequencer, the ALU's results and flags as numbers (42_alu.md R74),
and from them the immediate load of R76 and the flag-writing operations of R82 to R86. -/

namespace Sys2Proof.Machine

/-! ### Frames compose -/

section
variable {s t u : State} {parts : List Part}

theorem Part.Same.trans {p : Part} (h : Part.Same s t p) (h' : Part.Same t u p) : Part.Same s u p := by
  cases p with
  | regs | memory => exact fun a => (h' a).trans (h a)
  | screen => exact fun px py => (h' px py).trans (h px py)
  | index | stack | delay | sound | waiting | status | draws => exact Eq.trans h' h

theorem FrameBut.trans (h : FrameBut parts s t) (h' : FrameBut parts t u) : FrameBut parts s u := by
  obtain ⟨hsame, hkey, hcfg⟩ := h
  obtain ⟨hsame', hkey', hcfg'⟩ := h'
  exact ⟨fun p hp => (hsame p hp).trans (hsame' p hp), hkey'.trans hkey, hcfg'.trans hcfg⟩

/-- The sequencer may follow: a frame does not speak of PC. -/
theorem FrameBut.advance (h : FrameBut parts s t) (k : Seq) : FrameBut parts s (t.advance k) :=
  have ⟨hsame, hkey, hcfg⟩ := advance_frameBut t k
  h.trans ⟨fun p _ => hsame p List.not_mem_nil, hkey, hcfg⟩

end

/-! ### Register writes -/

section
variable (s : State) (x : Reg) (b res f : Byte)

theorem setReg_regsBut : RegsBut [x] s (s.setReg x b) := fun _ hr =>
  setReg_reg_other s (List.ne_of_not_mem_cons hr) b

theorem setReg_frameBut : FrameBut [.regs] s (s.setReg x b) := by
  refine ⟨fun p hp => ?_, rfl, rfl⟩
  cases p with
  | regs => exact absurd (List.mem_singleton_self _) hp
  | memory => exact fun _ => rfl
  | screen => exact fun _ _ => rfl
  | index | stack | delay | sound | waiting | status | draws => rfl

theorem setResultAndFlag_frameBut : FrameBut [.regs] s (s.setResultAndFlag x res f) :=
  (setReg_frameBut s x res).trans (setReg_frameBut _ vf f)

theorem setResultAndFlag_regsBut : RegsBut [x, vf] s (s.setResultAndFlag x res f) := by
  intro r hr
  obtain ⟨hx, hvf⟩ : r ≠ x ∧ r ≠ vf := by simpa using hr
  rw [setResultAndFlag_reg, if_neg hvf, if_neg hx]

/-- The writes of a flag-writing operation have its effect, for a destination that the flag does not overwrite. -/
theorem setResultAndFlag_aluEffect {x : Reg} (hx : x ≠ vf) :
    AluEffect x res.toNat f.toNat s ((s.setResultAndFlag x res f).advance .seq) := by
  have hres : (s.setResultAndFlag x res f).reg x = res := by
    rw [setResultAndFlag_reg, if_neg hx, if_pos rfl]
  have hflag : (s.setResultAndFlag x res f).reg vf = f := by
    rw [setResultAndFlag_reg, if_pos rfl]
  exact ⟨congrArg BitVec.toNat hres, congrArg BitVec.toNat hflag, setResultAndFlag_regsBut s x res f,
    (setResultAndFlag_frameBut s x res f).advance .seq, advance_seq_pcPlus (s.setResultAndFlag x res f)⟩

end

/-! ### LD Vx, byte (42_alu.md R76) -/

theorem decode_six {w : Word} (hop : opOf w = 0x6) : decode w = .ldImm (xOf w) (nnOf w) := by
  simp [decode, hop]

theorem exec_ldImm (s : State) (x : Reg) (nn : Byte) :
    exec (.ldImm x nn) s = .next ((s.setReg x nn).advance .seq) := rfl

/-- Settles O25: the words, and the one register write that the sequencer follows. -/
theorem loadImmediate : Obligations.LoadImmediate :=
  ⟨fun _ => decode_six,
   fun s x nn => ⟨_, exec_ldImm s x nn, setReg_reg_same s x nn, setReg_regsBut s x nn,
    (setReg_frameBut s x nn).advance .seq, advance_seq_pcPlus (s.setReg x nn)⟩⟩

/-! ### Results and flags as numbers (42_alu.md R74) -/

section
variable (a b : Byte)

theorem carryFlag_toNat : (carryFlag a b).toNat = if a.toNat + b.toNat > 255 then 1 else 0 := by
  rw [carryFlag, flagOf_decide]
  split <;> rfl

theorem notBorrowFlag_toNat : (notBorrowFlag a b).toNat = if a.toNat < b.toNat then 0 else 1 := by
  rw [notBorrowFlag, ← decide_not, flagOf_decide, ite_not]
  split <;> rfl

/-- The flag of a bit is the bit's digit in the binary number. -/
theorem flagOf_getLsbD_toNat (k : Nat) : (flagOf (b.getLsbD k)).toNat = b.toNat / 2 ^ k % 2 := by
  rw [BitVec.getLsbD, Nat.testBit_eq_decide_div_mod_eq, flagOf_decide]
  obtain h | h := Nat.mod_two_eq_zero_or_one (b.toNat / 2 ^ k) <;> simp [h]

theorem shiftedOutRight_toNat : (shiftedOutRight b).toNat = b.toNat % 2 := by
  rw [shiftedOutRight, flagOf_getLsbD_toNat, Nat.pow_zero, Nat.div_one]

theorem shiftedOutLeft_toNat : (shiftedOutLeft b).toNat = b.toNat / 128 := by
  have hlt := b.isLt
  rw [shiftedOutLeft, flagOf_getLsbD_toNat]
  omega

theorem byte_sub_toNat : (a - b).toNat = (a.toNat + 256 - b.toNat) % 256 := by
  have hlt := b.isLt
  rw [BitVec.toNat_sub]
  omega

theorem byte_ushiftRight_one_toNat : (b >>> 1).toNat = b.toNat / 2 := by
  rw [BitVec.toNat_ushiftRight, Nat.shiftRight_one]

theorem byte_shiftLeft_one_toNat : (b <<< 1).toNat = b.toNat * 2 % 256 := by
  rw [BitVec.toNat_shiftLeft, Nat.shiftLeft_eq]

end

/-! ### The flag-writing operations (42_alu.md R82 to R86) -/

section
variable (s : State) (x y : Reg)

theorem exec_addReg : exec (.addReg x y) s = .next ((s.setResultAndFlag x (s.reg x + s.reg y)
    (carryFlag (s.reg x) (s.reg y))).advance .seq) := rfl

theorem exec_sub : exec (.sub x y) s = .next ((s.setResultAndFlag x (s.reg x - s.reg y)
    (notBorrowFlag (s.reg x) (s.reg y))).advance .seq) := rfl

theorem exec_subn : exec (.subn x y) s = .next ((s.setResultAndFlag x (s.reg y - s.reg x)
    (notBorrowFlag (s.reg y) (s.reg x))).advance .seq) := rfl

theorem exec_shr : exec (.shr x y) s = .next ((s.setResultAndFlag x (s.reg y >>> 1)
    (shiftedOutRight (s.reg y))).advance .seq) := rfl

theorem exec_shl : exec (.shl x y) s = .next ((s.setResultAndFlag x (s.reg y <<< 1)
    (shiftedOutLeft (s.reg y))).advance .seq) := rfl

end

/-- An instruction whose writes are a result and a flag with the given values has their effect. -/
theorem exec_aluEffect {i : Instr} {s : State} {x : Reg} {res f : Byte} {r g : Nat} (hx : x ≠ vf)
    (hexec : exec i s = .next ((s.setResultAndFlag x res f).advance .seq)) (hres : res.toNat = r)
    (hflag : f.toNat = g) : ∃ t, exec i s = .next t ∧ AluEffect x r g s t :=
  ⟨_, hexec, hres ▸ hflag ▸ setResultAndFlag_aluEffect s res f hx⟩

/-- Settles O28, operation by operation: what it writes, and the numbers that its result and its flag are. -/
theorem flaggedAluResultsAndFlags : Obligations.FlaggedAluResultsAndFlags := fun s x y hx =>
  ⟨exec_aluEffect hx (exec_addReg s x y) (BitVec.toNat_add _ _) (carryFlag_toNat _ _),
   exec_aluEffect hx (exec_sub s x y) (byte_sub_toNat _ _) (notBorrowFlag_toNat _ _),
   exec_aluEffect hx (exec_subn s x y) (byte_sub_toNat _ _) (notBorrowFlag_toNat _ _),
   exec_aluEffect hx (exec_shr s x y) (byte_ushiftRight_one_toNat _) (shiftedOutRight_toNat _),
   exec_aluEffect hx (exec_shl s x y) (byte_shiftLeft_one_toNat _) (shiftedOutLeft_toNat _)⟩

end Sys2Proof.Machine

/-! SUPPORT. The index write that ends in the sequencer, and from it the index load of 43_index_memory.md R89 and the
font digit address of R91. -/

namespace Sys2Proof.Machine

/-! ### The index write -/

section
variable (s : State)

theorem setI_frameBut (n : Nat) : FrameBut [.index] s (s.setI n) := by
  refine ⟨fun p hp => ?_, rfl, rfl⟩
  cases p with
  | index => exact absurd (List.mem_singleton_self _) hp
  | regs | memory => exact fun _ => rfl
  | screen => exact fun _ _ => rfl
  | stack | delay | sound | waiting | status | draws => rfl

/-- The mask of I (10_state.md R15) leaves a 12-bit number as it is. -/
theorem setI_i_toNat_of_le {n : Nat} (h : n ≤ 0xFFF) : (s.setI n).i.toNat = n := by
  rw [State.setI_i, addr16_toNat, mask12_of_le h]

end

/-! ### LD I, addr (43_index_memory.md R89) -/

theorem decode_ten {w : Word} (hop : opOf w = 0xA) : decode w = .ldI (nnnOf w) := by
  simp [decode, hop]

theorem exec_ldI (s : State) (nnn : Addr) : exec (.ldI nnn) s = .next ((s.setI nnn.toNat).advance .seq) := rfl

/-- Settles O31: the words, and the one index write, of 12 bits already, that the sequencer follows. -/
theorem loadIndex : Obligations.LoadIndex :=
  ⟨fun _ => decode_ten,
   fun s nnn => ⟨_, exec_ldI s nnn, setI_i_toNat_of_le s (Nat.le_of_lt_succ nnn.isLt),
    (setI_frameBut s nnn.toNat).advance .seq, advance_seq_pcPlus (s.setI nnn.toNat)⟩⟩

/-! ### LD F, Vx (43_index_memory.md R91) -/

theorem lowNibble_toNat (b : Byte) : (lowNibble b).toNat = b.toNat % 16 := by
  rw [lowNibble, BitVec.extractLsb'_toNat, Nat.shiftRight_zero]

theorem decode_fifteen {w : Word} (hop : opOf w = 0xF) : decode w = decodeMisc w := by
  simp [decode, hop]

theorem decode_ldF {w : Word} (hop : opOf w = 0xF) (hnn : nnOf w = 0x29) : decode w = .ldF (xOf w) := by
  rw [decode_fifteen hop]
  simp [decodeMisc, hnn]

theorem exec_ldF (s : State) (x : Reg) :
    exec (.ldF x) s = .next ((s.setI (5 * (lowNibble (s.reg x)).toNat)).advance .seq) := rfl

/-- Settles O33: the words, and the one index write that the sequencer follows; the last of the 16 glyphs starts at
0x04B, so the mask of I changes nothing. -/
theorem fontDigitAddress : Obligations.FontDigitAddress := by
  refine ⟨fun _ => decode_ldF, fun s x => ?_⟩
  have hlast : 5 * (lowNibble (s.reg x)).toNat ≤ 0x04B := by omega
  have hi := setI_i_toNat_of_le s (hlast.trans (by decide))
  exact ⟨_, exec_ldF s x, hi.trans (congrArg (5 * ·) (lowNibble_toNat (s.reg x))), hi.trans_le hlast,
    (setI_frameBut s _).advance .seq, advance_seq_pcPlus (s.setI _)⟩

end Sys2Proof.Machine

/-! SUPPORT. Where reset leaves the core to start (70_reset_and_hazards.md R119), and from it the entry point of R120. -/

namespace Sys2Proof.Machine

/-! ### Where a reset core starts -/

section
variable (c : Config)

@[simp] theorem resetWith_pc : (State.resetWith c).pc = 0x200 := rfl
@[simp] theorem resetWith_status : (State.resetWith c).status = .running := rfl
@[simp] theorem resetWith_wait : (State.resetWith c).wait = none := rfl

end

/-- The host's reset starts where the reset under the state's own parameters does. -/
theorem hostReset_entry (s : State) :
    (hostReset s).pc = 0x200 ∧ (hostReset s).status = .running ∧ (hostReset s).wait = none :=
  ⟨resetWith_pc s.cfg, resetWith_status s.cfg, resetWith_wait s.cfg⟩

/-! ### The entry point (R120) -/

/-- Settles O56: the fields that reset sets, and each byte of a loaded image at its address from 0x200 up. -/
theorem entryPoint : Obligations.EntryPoint :=
  ⟨resetWith_pc _, resetWith_status _, resetWith_wait _, hostReset_entry,
   fun s _ hwf hlen => ⟨_, load_of_le hlen s, fun _ hk => load_memRead hlen s hwf hk⟩⟩

end Sys2Proof.Machine

/-! SUPPORT. Words and descriptors (30_encoding.md R42 to R50): a format gives its fields back and the fields give the
word back, so that decoding and encoding invert each other; and the rows of the opcode map by the instruction that each
one decodes to. -/

namespace Sys2Proof

open Laws.EncodeMatchesRow (rowOf Statement)

/-! ### The fields of the formats (R43) -/

section
variable (k x y n : BitVec 4) (nn : Byte) (nnn : Addr)

@[simp] theorem opOf_nnn : opOf (k ++ nnn) = k := by
  have := toNat_nnn k nnn; have := nnn.isLt
  apply BitVec.eq_of_toNat_eq; rw [opOf_toNat]; omega

@[simp] theorem nnnOf_nnn : nnnOf (k ++ nnn) = nnn := by
  have := toNat_nnn k nnn; have := nnn.isLt
  apply BitVec.eq_of_toNat_eq; rw [nnnOf_toNat]; omega

@[simp] theorem opOf_xnn : opOf (k ++ x ++ nn) = k := by
  have := toNat_xnn k x nn; have := x.isLt; have := nn.isLt
  apply BitVec.eq_of_toNat_eq; rw [opOf_toNat]; omega

@[simp] theorem xOf_xnn : xOf (k ++ x ++ nn) = x := by
  have := toNat_xnn k x nn; have := x.isLt; have := nn.isLt
  apply BitVec.eq_of_toNat_eq; rw [xOf_toNat]; omega

@[simp] theorem nnOf_xnn : nnOf (k ++ x ++ nn) = nn := by
  have := toNat_xnn k x nn; have := x.isLt; have := nn.isLt
  apply BitVec.eq_of_toNat_eq; rw [nnOf_toNat]; omega

@[simp] theorem opOf_xyn : opOf (k ++ x ++ y ++ n) = k := by
  have := toNat_xyn k x y n; have := x.isLt; have := y.isLt; have := n.isLt
  apply BitVec.eq_of_toNat_eq; rw [opOf_toNat]; omega

@[simp] theorem xOf_xyn : xOf (k ++ x ++ y ++ n) = x := by
  have := toNat_xyn k x y n; have := x.isLt; have := y.isLt; have := n.isLt
  apply BitVec.eq_of_toNat_eq; rw [xOf_toNat]; omega

@[simp] theorem yOf_xyn : yOf (k ++ x ++ y ++ n) = y := by
  have := toNat_xyn k x y n; have := x.isLt; have := y.isLt; have := n.isLt
  apply BitVec.eq_of_toNat_eq; rw [yOf_toNat]; omega

@[simp] theorem nOf_xyn : nOf (k ++ x ++ y ++ n) = n := by
  have := toNat_xyn k x y n; have := x.isLt; have := y.isLt; have := n.isLt
  apply BitVec.eq_of_toNat_eq; rw [nOf_toNat]; omega

end

/-! ### A word from its fields (R43) -/

section
variable {w : Word} {k n : Nibble} {nn : Byte}

theorem word_nnn (hop : opOf w = k) : k ++ nnnOf w = w := by
  subst hop
  apply BitVec.eq_of_toNat_eq
  rw [toNat_nnn, opOf_toNat, nnnOf_toNat]; omega

theorem word_xnn (hop : opOf w = k) (hnn : nnOf w = nn) : k ++ xOf w ++ nn = w := by
  subst hop hnn
  apply BitVec.eq_of_toNat_eq
  rw [toNat_xnn, opOf_toNat, xOf_toNat, nnOf_toNat]; omega

theorem word_xyn (hop : opOf w = k) (hn : nOf w = n) : k ++ xOf w ++ yOf w ++ n = w := by
  subst hop hn
  apply BitVec.eq_of_toNat_eq
  rw [toNat_xyn, opOf_toNat, xOf_toNat, yOf_toNat, nOf_toNat]; omega

end

/-! ### Encode after decode (R49) -/

section
variable {w : Word}

theorem encode_decodeAlu (hop : opOf w = 0x8) : encode (decodeAlu w) = w := by
  unfold decodeAlu
  iterate 9 (split; · exact word_xyn hop ‹_›)
  rfl

theorem encode_decodeMisc (hop : opOf w = 0xF) : encode (decodeMisc w) = w := by
  unfold decodeMisc
  iterate 9 (split; · exact word_xnn hop ‹_›)
  rfl

/-- The branches of the decoder in their order, each with the fields that it found. -/
theorem encode_decode (w : Word) : encode (decode w) = w := by
  fun_cases decode w
  case case1 | case2 => exact Eq.symm ‹_›
  case case3 | case9 | case14 | case21 => rfl
  case case4 | case5 | case15 | case16 => exact word_nnn ‹_›
  case case6 | case7 | case10 | case11 | case17 => exact word_xnn ‹_› rfl
  case case8 | case13 => exact word_xyn ‹_› ‹_›
  case case12 => exact encode_decodeAlu ‹_›
  case case18 => exact word_xyn ‹_› rfl
  case case19 | case20 => exact word_xnn ‹_› ‹_›
  case case22 => exact encode_decodeMisc (by bv_omega)

/-- UNKNOWN carries the word itself (R47). -/
theorem decode_eq_unknown {w u : Word} (h : decode w = .unknown u) : u = w := by
  simpa [h, encode] using encode_decode w

/-! ### Named instructions and the rows of the opcode map (R45) -/

/-- Every descriptor's word is accepted by its own row, and a well-formed UNKNOWN's by none. -/
theorem encodeMatchesRow (i : Instr) : Statement i := by
  cases i with
  | cls => exact Laws.EncodeMatchesRow.cls
  | ret => exact Laws.EncodeMatchesRow.ret
  | jp nnn => exact Laws.EncodeMatchesRow.jp nnn
  | call nnn => exact Laws.EncodeMatchesRow.call nnn
  | seImm x nn => exact Laws.EncodeMatchesRow.seImm x nn
  | sneImm x nn => exact Laws.EncodeMatchesRow.sneImm x nn
  | seReg x y => exact Laws.EncodeMatchesRow.seReg x y
  | ldImm x nn => exact Laws.EncodeMatchesRow.ldImm x nn
  | addImm x nn => exact Laws.EncodeMatchesRow.addImm x nn
  | ldReg x y => exact Laws.EncodeMatchesRow.ldReg x y
  | orReg x y => exact Laws.EncodeMatchesRow.orReg x y
  | andReg x y => exact Laws.EncodeMatchesRow.andReg x y
  | xorReg x y => exact Laws.EncodeMatchesRow.xorReg x y
  | addReg x y => exact Laws.EncodeMatchesRow.addReg x y
  | sub x y => exact Laws.EncodeMatchesRow.sub x y
  | shr x y => exact Laws.EncodeMatchesRow.shr x y
  | subn x y => exact Laws.EncodeMatchesRow.subn x y
  | shl x y => exact Laws.EncodeMatchesRow.shl x y
  | sneReg x y => exact Laws.EncodeMatchesRow.sneReg x y
  | ldI nnn => exact Laws.EncodeMatchesRow.ldI nnn
  | jpV0 nnn => exact Laws.EncodeMatchesRow.jpV0 nnn
  | rnd x nn => exact Laws.EncodeMatchesRow.rnd x nn
  | drw x y n => exact Laws.EncodeMatchesRow.drw x y n
  | skp x => exact Laws.EncodeMatchesRow.skp x
  | sknp x => exact Laws.EncodeMatchesRow.sknp x
  | ldVxDt x => exact Laws.EncodeMatchesRow.ldVxDt x
  | ldVxK x => exact Laws.EncodeMatchesRow.ldVxK x
  | ldDtVx x => exact Laws.EncodeMatchesRow.ldDtVx x
  | ldStVx x => exact Laws.EncodeMatchesRow.ldStVx x
  | addI x => exact Laws.EncodeMatchesRow.addI x
  | ldF x => exact Laws.EncodeMatchesRow.ldF x
  | ldB x => exact Laws.EncodeMatchesRow.ldB x
  | stRegs x => exact Laws.EncodeMatchesRow.stRegs x
  | ldRegs x => exact Laws.EncodeMatchesRow.ldRegs x
  | unknown w => exact Laws.EncodeMatchesRow.unknown w

/-- Only UNKNOWN has no row. -/
theorem eq_unknown_of_rowOf_none {i : Instr} (h : rowOf i = none) : ∃ u, i = .unknown u := by
  cases i with
  | unknown u => exact ⟨u, rfl⟩
  | _ => cases h

/-- Only UNKNOWN can be ill formed. -/
theorem wellFormed_of_rowOf_some {i : Instr} {p : Pattern} (h : rowOf i = some p) : i.wellFormed = true := by
  cases i with
  | unknown u => cases h
  | _ => rfl

/-- A word that decodes to a named instruction is accepted by that instruction's row. -/
theorem accepts_of_rowOf_decode {p : Pattern} (h : rowOf (decode w) = some p) : p ∈ patterns ∧ p.accepts w = true := by
  have hrow := encodeMatchesRow (decode w) (wellFormed_of_rowOf_some h)
  rwa [h, encode_decode] at hrow

/-- A word that no row accepts decodes to UNKNOWN (R47). -/
theorem decode_of_not_accepted (h : ∀ p ∈ patterns, p.accepts w = false) : decode w = .unknown w := by
  cases hrow : rowOf (decode w) with
  | none =>
    obtain ⟨u, hu⟩ := eq_unknown_of_rowOf_none hrow
    rw [hu, decode_eq_unknown hu]
  | some p =>
    obtain ⟨hp, haccepts⟩ := accepts_of_rowOf_decode hrow
    exact absurd haccepts (by simp [h p hp])

theorem decode_of_not_recognised (h : recognised w = false) : decode w = .unknown w :=
  decode_of_not_accepted (by simpa [recognised] using h)

end

/-! ### Decode after encode (R49) -/

/-- Settles O1: the decoder tests the fields of each format, and they are the ones the encoder put in; the word of a
well-formed UNKNOWN has no row. -/
theorem decodeOfEncodeIsIdentity : Obligations.DecodeOfEncodeIsIdentity := by
  intro i hi
  cases i with
  | cls | ret => rfl
  | jp | call | ldI | jpV0 => simp [encode, decode]
  | seImm | sneImm | ldImm | addImm | rnd => simp [encode, decode]
  | skp | sknp => simp [encode, decode]
  | seReg | sneReg | drw => simp [encode, decode]
  | ldReg | orReg | andReg | xorReg | addReg | sub | shr | subn | shl => simp [encode, decode, decodeAlu]
  | ldVxDt | ldVxK | ldDtVx | ldStVx | addI | ldF | ldB | stRegs | ldRegs => simp [encode, decode, decodeMisc]
  | unknown w => exact decode_of_not_recognised (encodeMatchesRow (.unknown w) hi)

/-! ### The word of a row (R45) -/

section
variable {w : Word}

theorem accepts_iff (p : Pattern) : p.accepts w = true ↔ w &&& p.mask = p.value := beq_iff_eq

theorem opOf_of_F000 {v : Word} (h : w &&& 0xF000 = v) : opOf w = opOf v := by
  have := (accepts_F000 w v).mp ((accepts_iff ⟨0xF000, v⟩).mpr h)
  apply BitVec.eq_of_toNat_eq
  rw [opOf_toNat, opOf_toNat]; omega

theorem opOf_nOf_of_F00F {v : Word} (h : w &&& 0xF00F = v) : opOf w = opOf v ∧ nOf w = nOf v := by
  have := (accepts_F00F w v).mp ((accepts_iff ⟨0xF00F, v⟩).mpr h)
  constructor <;> apply BitVec.eq_of_toNat_eq
  · rw [opOf_toNat, opOf_toNat]; omega
  · rw [nOf_toNat, nOf_toNat]; omega

theorem opOf_nnOf_of_F0FF {v : Word} (h : w &&& 0xF0FF = v) : opOf w = opOf v ∧ nnOf w = nnOf v := by
  have := (accepts_F0FF w v).mp ((accepts_iff ⟨0xF0FF, v⟩).mpr h)
  constructor <;> apply BitVec.eq_of_toNat_eq
  · rw [opOf_toNat, opOf_toNat]; omega
  · rw [nnOf_toNat, nnOf_toNat]; omega

/-- The word of a named instruction decodes to it. -/
theorem decode_eq_of_encode {i : Instr} (hrow : (rowOf i).isSome) (h : encode i = w) : decode w = i := by
  obtain ⟨p, hp⟩ := Option.isSome_iff_exists.mp hrow
  exact h ▸ decodeOfEncodeIsIdentity i (wellFormed_of_rowOf_some hp)

/-- The rows of mask F000 whose pattern names the fields nnn. -/
theorem decode_row_nnn {i : Instr} {v : Word} (hrow : (rowOf i).isSome) (hi : encode i = opOf v ++ nnnOf w)
    (h : w &&& 0xF000 = v) : decode w = i :=
  decode_eq_of_encode hrow (hi.trans (word_nnn (opOf_of_F000 h)))

/-- The rows of mask F000 whose pattern names the fields x and nn. -/
theorem decode_row_xnn {i : Instr} {v : Word} (hrow : (rowOf i).isSome)
    (hi : encode i = opOf v ++ xOf w ++ nnOf w) (h : w &&& 0xF000 = v) : decode w = i :=
  decode_eq_of_encode hrow (hi.trans (word_xnn (opOf_of_F000 h) rfl))

/-- The row of mask F000 whose pattern names the fields x, y and n. -/
theorem decode_row_xyn {i : Instr} {v : Word} (hrow : (rowOf i).isSome)
    (hi : encode i = opOf v ++ xOf w ++ yOf w ++ nOf w) (h : w &&& 0xF000 = v) : decode w = i :=
  decode_eq_of_encode hrow (hi.trans (word_xyn (opOf_of_F000 h) rfl))

/-- The rows of mask F00F, with the fields x and y. -/
theorem decode_row_xy {i : Instr} {v : Word} (hrow : (rowOf i).isSome)
    (hi : encode i = opOf v ++ xOf w ++ yOf w ++ nOf v) (h : w &&& 0xF00F = v) : decode w = i :=
  have ⟨hop, hn⟩ := opOf_nOf_of_F00F h
  decode_eq_of_encode hrow (hi.trans (word_xyn hop hn))

/-- The rows of mask F0FF, with the field x. -/
theorem decode_row_x {i : Instr} {v : Word} (hrow : (rowOf i).isSome)
    (hi : encode i = opOf v ++ xOf w ++ nnOf v) (h : w &&& 0xF0FF = v) : decode w = i :=
  have ⟨hop, hnn⟩ := opOf_nnOf_of_F0FF h
  decode_eq_of_encode hrow (hi.trans (word_xnn hop hnn))

/-- Settles O5: the word of each row is the word of the row's instruction with the fields of the word, which decodes to
that instruction. -/
theorem eachRowDecodesToItsTag : Obligations.EachRowDecodesToItsTag := fun _ =>
  ⟨decode_eq_of_encode rfl ∘ Eq.symm, decode_eq_of_encode rfl ∘ Eq.symm,
   decode_row_nnn rfl rfl, decode_row_nnn rfl rfl, decode_row_xnn rfl rfl, decode_row_xnn rfl rfl,
   decode_row_xy rfl rfl, decode_row_xnn rfl rfl, decode_row_xnn rfl rfl,
   decode_row_xy rfl rfl, decode_row_xy rfl rfl, decode_row_xy rfl rfl, decode_row_xy rfl rfl, decode_row_xy rfl rfl,
   decode_row_xy rfl rfl, decode_row_xy rfl rfl, decode_row_xy rfl rfl, decode_row_xy rfl rfl, decode_row_xy rfl rfl,
   decode_row_nnn rfl rfl, decode_row_nnn rfl rfl, decode_row_xnn rfl rfl, decode_row_xyn rfl rfl,
   decode_row_x rfl rfl, decode_row_x rfl rfl, decode_row_x rfl rfl, decode_row_x rfl rfl, decode_row_x rfl rfl,
   decode_row_x rfl rfl,
   decode_row_x rfl rfl, decode_row_x rfl rfl, decode_row_x rfl rfl, decode_row_x rfl rfl, decode_row_x rfl rfl⟩

/-! ### The row of a word (R49) -/

theorem and_FFFF (p : Word) : w &&& 0xFFFF = p ↔ w = p := by
  rw [show (0xFFFF : Word) = BitVec.allOnes 16 from rfl, BitVec.and_allOnes]

/-- The row of an instruction accepts a word only if the word decodes to the instruction, as EachRowDecodesToItsTag
says of each row. -/
theorem rowOf_decode {i : Instr} {m v : Word} (hdecode : w &&& m = v → decode w = i)
    (hrow : rowOf i = some ⟨m, v⟩ := by rfl) (h : (Pattern.mk m v).accepts w = true) : rowOf (decode w) = some ⟨m, v⟩ :=
  (congrArg rowOf (hdecode ((accepts_iff ⟨m, v⟩).mp h))).trans hrow

/-- A row that accepts a word is the row of the instruction that the word decodes to. -/
theorem rowOf_decode_of_accepts : ∀ p ∈ patterns, p.accepts w = true → rowOf (decode w) = some p := by
  obtain ⟨cls, ret, jp, call, seImm, sneImm, seReg, ldImm, addImm, ldReg, orReg, andReg, xorReg, addReg, sub, shr, subn,
    shl, sneReg, ldI, jpV0, rnd, drw, skp, sknp, ldVxDt, ldVxK, ldDtVx, ldStVx, addI, ldF, ldB, stRegs, ldRegs⟩ :=
    eachRowDecodesToItsTag w
  simp only [patterns, patternsLow, patternsAlu, patternsHigh, patternsMisc, List.cons_append, List.nil_append,
    List.forall_mem_cons]
  exact ⟨rowOf_decode (cls ∘ (and_FFFF _).mp), rowOf_decode (ret ∘ (and_FFFF _).mp), rowOf_decode jp,
    rowOf_decode call, rowOf_decode seImm, rowOf_decode sneImm, rowOf_decode seReg, rowOf_decode ldImm,
    rowOf_decode addImm, rowOf_decode ldReg, rowOf_decode orReg, rowOf_decode andReg, rowOf_decode xorReg,
    rowOf_decode addReg, rowOf_decode sub, rowOf_decode shr, rowOf_decode subn, rowOf_decode shl,
    rowOf_decode sneReg, rowOf_decode ldI, rowOf_decode jpV0, rowOf_decode rnd, rowOf_decode drw, rowOf_decode skp,
    rowOf_decode sknp, rowOf_decode ldVxDt, rowOf_decode ldVxK, rowOf_decode ldDtVx, rowOf_decode ldStVx,
    rowOf_decode addI, rowOf_decode ldF, rowOf_decode ldB, rowOf_decode stRegs, rowOf_decode ldRegs,
    List.forall_mem_nil _⟩

/-- Settles O3: two rows that accept a word are both the row of its instruction, and the rows differ. -/
theorem opcodeRowsNeverOverlap : Obligations.OpcodeRowsNeverOverlap := by
  intro w j k hj hk
  have hrow := (rowOf_decode_of_accepts _ (List.getElem_mem _) hj).symm.trans
    (rowOf_decode_of_accepts _ (List.getElem_mem _) hk)
  have hnodup : patterns.Nodup := by decide
  exact Fin.ext (hnodup.getElem_inj_iff.mp (Option.some.inj hrow))

/-- Settles O4: a word that no row accepts has an instruction without a row, and one that a row accepts has not. -/
theorem unknownExactlyWhenNoRowAccepts : Obligations.UnknownExactlyWhenNoRowAccepts := by
  refine fun w => ⟨decode_of_not_accepted, ?_⟩
  rintro ⟨p, hp, haccepts⟩ u hu
  have hrow := rowOf_decode_of_accepts p hp haccepts
  rw [hu] at hrow
  cases hrow

/-- Settles O2: the decoder's fields make up the word, and a word that decodes to UNKNOWN is accepted by no row. -/
theorem encodeOfDecodeIsIdentity : Obligations.EncodeOfDecodeIsIdentity := by
  refine fun w => ⟨encode_decode w, ?_⟩
  cases hrecognised : recognised w with
  | false => rw [decode_of_not_recognised hrecognised, Instr.wellFormed, hrecognised]; rfl
  | true =>
    obtain ⟨p, hp, haccepts⟩ := (recognised_iff w).mp hrecognised
    exact wellFormed_of_rowOf_some (rowOf_decode_of_accepts p hp haccepts)

end

/-- Settles O6, by running the decoder on the words of the spec's vectors. -/
theorem writtenOutWordsDecode : Obligations.WrittenOutWordsDecode := by
  unfold Obligations.WrittenOutWordsDecode
  decide

end Sys2Proof

/-! SUPPORT. What a transition does to the core's status (60_exceptions.md R106 to R108, 20_memory.md R38), and from it
the two ways to halt, the error that is never raised, the halt that only reset leaves, and what a step reports. -/

namespace Sys2Proof.Machine

variable {s t : State} {i : Instr}

/-! ### The status after an instruction and after a step -/

/-- What the next state of an instruction can be: its arm's writes and a moved PC, where only Fx0A starts a wait; or the
halted state of the one fatal error that its rule names. -/
theorem exec_next_cases (h : exec i s = .next t) :
    (∃ u k, ArmWrites s u ∧ t = u.advance k ∧
      (u.wait = s.wait ∨ ∃ x, i = .ldVxK x ∧ k = .hold ∧ u = s.setWait (some ⟨x, s.key⟩))) ∨
    (s.stack.length = 16 ∧ (∃ nnn, i = .call nnn) ∧ t = { s with status := .halted .stackOverflow }) ∨
    (s.stack = [] ∧ i = .ret ∧ t = { s with status := .halted .stackUnderflow }) := by
  rcases exec_cases i s with ⟨u, k, hexec, hwrites, hwait⟩ | ⟨hfull, hcall, hexec⟩ | ⟨hempty, hret, hexec⟩ <;>
    rw [hexec] at h
  · exact .inl ⟨u, k, hwrites, finish_eq_next h, hwait.imp_left And.right⟩
  · exact .inr (.inl ⟨hfull, hcall, raiseFatal_eq_next s h⟩)
  · exact .inr (.inr ⟨hempty, hret, raiseFatal_eq_next s h⟩)

/-- An instruction leaves the status as it was, or it is the CALL or RET that met its fatal error. -/
theorem exec_status (h : exec i s = .next t) :
    t.status = s.status ∨
    (t.status = .halted .stackOverflow ∧ s.stack.length = 16 ∧ ∃ nnn, i = .call nnn) ∨
    (t.status = .halted .stackUnderflow ∧ s.stack = [] ∧ i = .ret) := by
  obtain ⟨u, k, hwrites, rfl, -⟩ | ⟨hfull, hcall, rfl⟩ | ⟨hempty, hret, rfl⟩ := exec_next_cases h
  · exact .inl hwrites.status_eq
  · exact .inr (.inl ⟨rfl, hfull, hcall⟩)
  · exact .inr (.inr ⟨rfl, hempty, hret⟩)

theorem waitStep_status {w : Awaiting} (h : waitStep w s = .next t) : t.status = s.status := by
  obtain ⟨u, k, hwrites, rfl⟩ := waitStep_writes h
  exact hwrites.status_eq

/-- A step leaves the status as it was, or raises one of the two errors of the call stack. -/
theorem step_status (h : step s = .next t) :
    t.status = s.status ∨ t.status = .halted .stackOverflow ∨ t.status = .halted .stackUnderflow := by
  rcases step_cases s with ⟨-, hstep⟩ | ⟨-, w, -, hstep⟩ | ⟨-, -, hstep⟩ <;> rw [hstep] at h
  · cases h; exact .inl rfl
  · exact .inl (waitStep_status h)
  · obtain hkept | ⟨hoverflow, -⟩ | ⟨hunderflow, -⟩ := exec_status h
    exacts [.inl hkept, .inr (.inl hoverflow), .inr (.inr hunderflow)]

/-- Settles O21, from what an instruction can do to the status. -/
theorem onlyCallAndRetHaltTheCore : Obligations.OnlyCallAndRetHaltTheCore :=
  fun _ _ _ h hchanged => (exec_status h).resolve_left hchanged

/-! ### The status after any transition -/

theorem load_status {image : List Byte} (h : load image s = .next t) : t.status = s.status := by
  obtain ⟨-, rfl⟩ := load_eq_next h
  exact s.memWriteBytes_status _ _

/-- Only a step and a reset write the status. -/
theorem transition_status {e : Event} (hstep : e ≠ .step) (hreset : e ≠ .reset) (h : transition e s = .next t) :
    t.status = s.status := by
  cases e with
  | step => exact absurd rfl hstep
  | reset => exact absurd rfl hreset
  | load image => exact load_status h
  | tick | setKey | readFb | readTimers => cases h; rfl

/-- Settles O22: a masked address passes the check of the raw accessors, and of the transitions only a step raises an
error, one of the call stack. -/
theorem addressOutOfRangeIsNeverRaised : Obligations.AddressOutOfRangeIsNeverRaised := by
  have hmask (a : Nat) : ¬mask12 a > 0xFFF := by have := mask12_lt a; omega
  refine ⟨fun s a => by rw [State.rawRead, if_neg (hmask a)]; rfl,
    fun s a b => by rw [State.rawWrite, if_neg (hmask a)]; rfl, fun e s t h hs => ?_⟩
  by_cases hstep : e = .step
  · subst hstep
    obtain hkept | hoverflow | hunderflow := step_status h
    · rwa [hkept]
    · simp [hoverflow]
    · simp [hunderflow]
  · by_cases hreset : e = .reset
    · subst hreset; cases h; simp [hostReset]
    · rwa [transition_status hstep hreset h]

/-- Settles O24: the step of a halted core changes nothing, and of the other transitions only a reset writes the
status. -/
theorem haltIsLeftOnlyByReset : Obligations.HaltIsLeftOnlyByReset := by
  intro e c s t hs h
  by_cases hstep : e = .step
  · subst hstep
    have hst : t = s := Host.Outcome.next.inj (h.symm.trans (step_halted hs))
    exact ⟨fun _ => hst, fun _ => hst ▸ hs, by simp⟩
  · refine ⟨(absurd · hstep), fun hreset => (transition_status hstep hreset h).trans hs, ?_⟩
    rintro rfl
    cases h; exact resetWith_status s.cfg

/-! ### The report of a step (40_cycle.md R54) -/

theorem reportAfter_eq_next {d : Bool} {e : Option (Word × Word)} {f : Effects} (h : reportAfter d e t = .next f) :
    f = { screenDirty := d, awaitingKey := t.wait.isSome, unknown := e } := by
  cases hstatus : t.status with
  | running => rw [reportAfter_running hstatus] at h; cases h; rfl
  | halted c => rw [reportAfter_halted hstatus] at h; cases h

/-- 00E0 and Dxyn alone redraw the screen (R54, D22). -/
theorem marksScreenDirty_iff : marksScreenDirty i = true ↔ i = .cls ∨ ∃ x y n, i = .drw x y n := by
  cases i <;> simp [marksScreenDirty]

/-- The event is that of an unknown word, with PC and the word (R62, D17). -/
theorem unknownEvent_eq_some_iff {p pc w : Word} : unknownEvent p i = some (pc, w) ↔ pc = p ∧ i = .unknown w := by
  cases i <;> simp [unknownEvent, eq_comm]

/-- Settles O10, by whether the core waits: the halted core and the step that halts it report no effects. -/
theorem stepReportsItsEffects : Obligations.StepReportsItsEffects := by
  intro s t f hstep hreport
  rcases step_cases s with ⟨⟨e, hhalted⟩, -⟩ | ⟨hrun, w, hw, hwait⟩ | ⟨hrun, hw, hexec⟩
  · rw [stepReport_halted hhalted] at hreport
    cases hreport
  · rw [stepReport_waiting hrun hw (hwait ▸ hstep), Option.some.injEq] at hreport
    obtain rfl := reportAfter_eq_next hreport
    exact ⟨rfl, by simp [hw], fun _ => ⟨rfl, rfl⟩⟩
  · rw [stepReport_running hrun hw (hexec ▸ hstep), Option.some.injEq] at hreport
    obtain rfl := reportAfter_eq_next hreport
    exact ⟨rfl, fun _ => ⟨marksScreenDirty_iff, fun _ _ => unknownEvent_eq_some_iff⟩, (absurd hw ·)⟩

/-- Settles O7: the fetch reads the two bytes that the hypothesis decodes. -/
theorem stepRunsTheDecodedInstruction : Obligations.StepRunsTheDecodedInstruction := by
  intro s i hrun hw hdecode
  have hi : s.fetchInstr = i := congrArg Prod.fst (Except.ok.inj hdecode)
  rw [step_running hrun hw, hi]

/-- Settles O11, kind by kind. -/
theorem sequencerComputesPc : Obligations.SequencerComputesPc := fun pc =>
  ⟨addr16_toNat (pc.toNat + 2), addr16_toNat (pc.toNat + 4), addr16_toNat (pc.toNat + 2), addr16_toNat, rfl⟩

end Sys2Proof.Machine

/-! SUPPORT. The three invariants of 10_state.md R11, R23 and R24: each holds at reset and is kept by every step and by
every host operation, and so by every run that keeps the loader contract (20_memory.md R36; 70_reset_and_hazards.md
R122). -/

namespace Sys2Proof.Machine

variable {s t : State}

/-! ### The bounds and the memory form -/

/-- An arm's writes keep the bounds: a pushed entry is the PC. -/
theorem State.Inv.of_armWrites (hs : s.Inv) (h : ArmWrites s t) : t.Inv where
  pc_le := h.pc_eq ▸ hs.pc_le
  i_le := h.i_eq.elim (fun hkept => hkept ▸ hs.i_le) id
  depth_le := h.depth_le hs.depth_le
  entry_le a ha := by
    obtain hkept | ⟨-, hpushed⟩ | ⟨b, hpopped⟩ := h.stack_eq
    · exact hs.entry_le a (hkept ▸ ha)
    · rw [hpushed, List.mem_append, List.mem_singleton] at ha
      exact ha.elim (hs.entry_le a) fun hpc => hpc ▸ hs.pc_le
    · exact hs.entry_le a (hpopped ▸ List.mem_append_left _ ha)
  mem_wf := h.mem_wf hs.mem_wf

/-- The sequencer keeps the bounds. -/
theorem State.Inv.advance (hs : s.Inv) (k : Seq) : (s.advance k).Inv where
  pc_le := nextPc_le k s.pc fun _ => hs.pc_le
  i_le := hs.i_le
  depth_le := hs.depth_le
  entry_le := hs.entry_le
  mem_wf := hs.mem_wf

/-- The bounds do not speak of the status. -/
theorem State.Inv.withStatus (hs : s.Inv) (c : Status) : State.Inv { s with status := c } :=
  ⟨hs.pc_le, hs.i_le, hs.depth_le, hs.entry_le, hs.mem_wf⟩

/-- Settles O51: a step's state has an arm's writes and a moved PC, or differs in the status alone. -/
theorem stepKeepsTheInvariant : Obligations.StepKeepsTheInvariant := by
  intro s t hs h
  obtain ⟨u, k, hwrites, rfl⟩ | ⟨e, rfl⟩ := step_writes h
  · exact (hs.of_armWrites hwrites).advance k
  · exact hs.withStatus _

/-! ### The wait at its Fx0A -/

theorem waitInv_of_none (h : s.wait = none) : s.WaitInv := fun w hw => by rw [h] at hw; cases hw

/-- A core that waits for the key of the Fx0A at PC. -/
theorem waitInv_setWait {x : Reg} {prev : Vector Bool 16} (hfetch : s.fetchInstr = .ldVxK x)
    (hrun : s.status = .running) : ((s.setWait (some ⟨x, prev⟩)).advance .hold).WaitInv := by
  rintro w ⟨⟩
  exact ⟨hfetch, hrun⟩

/-- A waiting step resamples at the same PC, or ends the wait. -/
theorem waitStep_waitInv {w : Awaiting} (hfetch : s.fetchInstr = .ldVxK w.x) (hrun : s.status = .running)
    (h : waitStep w s = .next t) : t.WaitInv := by
  rcases waitStep_cases w s with ⟨-, hwait⟩ | ⟨k, -, hwait⟩ <;> rw [hwait] at h <;> rw [finish_eq_next h]
  · exact waitInv_setWait hfetch hrun
  · exact waitInv_of_none rfl

/-- Of the instructions only Fx0A starts a wait, at itself. -/
theorem exec_waitInv (hwait : s.wait = none) (hrun : s.status = .running) (h : exec s.fetchInstr s = .next t) :
    t.WaitInv := by
  obtain ⟨u, k, -, rfl, hkept | ⟨x, hfetch, rfl, rfl⟩⟩ | ⟨-, -, rfl⟩ | ⟨-, -, rfl⟩ := exec_next_cases h
  · exact waitInv_of_none (hkept.trans hwait)
  · exact waitInv_setWait hfetch hrun
  · exact waitInv_of_none hwait
  · exact waitInv_of_none hwait

/-- Settles O52, by the branches of the step. -/
theorem stepKeepsTheWaitAtItsFx0A : Obligations.StepKeepsTheWaitAtItsFx0A := by
  intro s t hs h
  rcases step_cases s with ⟨-, hstep⟩ | ⟨-, w, hw, hstep⟩ | ⟨hrun, hw, hstep⟩ <;> rw [hstep] at h
  · cases h; exact hs
  · obtain ⟨hfetch, hrun⟩ := hs w hw
    exact waitStep_waitInv hfetch hrun h
  · exact exec_waitInv hw hrun h

/-! ### The precise halt -/

theorem haltInv_of_running (h : s.status = .running) : s.HaltInv := by rw [State.HaltInv, h]; trivial

/-- A fatal error is raised at the instruction and in the condition that raise it, which the status does not change. -/
theorem exec_haltInv (hrun : s.status = .running) (h : exec s.fetchInstr s = .next t) : t.HaltInv := by
  obtain ⟨u, k, hwrites, rfl, -⟩ | ⟨hfull, hcall, rfl⟩ | ⟨hempty, hret, rfl⟩ := exec_next_cases h
  · exact haltInv_of_running (hwrites.status_eq.trans hrun)
  · exact ⟨hfull, hcall⟩
  · exact ⟨hempty, hret⟩

/-- Settles O53, by the branches of the step. -/
theorem stepKeepsTheHaltPrecise : Obligations.StepKeepsTheHaltPrecise := by
  intro s t hs h
  rcases step_cases s with ⟨-, hstep⟩ | ⟨hrun, w, -, hstep⟩ | ⟨hrun, -, hstep⟩ <;> rw [hstep] at h
  · cases h; exact hs
  · exact haltInv_of_running ((waitStep_status h).trans hrun)
  · exact exec_haltInv hrun h

/-! ### Reset and the runs -/

theorem resetWith_inv (c : Config) : (State.resetWith c).Inv where
  pc_le := show (0x200 : Word).toNat ≤ 0xFFF by decide
  i_le := show (0 : Word).toNat ≤ 0xFFF by decide
  depth_le := Nat.zero_le _
  entry_le _ ha := absurd ha List.not_mem_nil
  mem_wf := Memory.wf_nil c

/-- Settles O54: the bounds field by field, and a core that neither waits nor is halted. -/
theorem resetHasTheInvariants : Obligations.ResetHasTheInvariants := fun c =>
  ⟨resetWith_inv c, waitInv_of_none (resetWith_wait c), haltInv_of_running (resetWith_status c)⟩

/-- The three invariants together. -/
structure State.Sound (s : State) : Prop where
  inv : s.Inv
  waitInv : s.WaitInv
  haltInv : s.HaltInv

/-- A running core that does not wait has the invariants when it has the bounds. -/
theorem State.Sound.of_running (hs : s.Inv) (hrun : s.status = .running) (hwait : s.wait = none) : s.Sound :=
  ⟨hs, waitInv_of_none hwait, haltInv_of_running hrun⟩

theorem hostReset_sound (s : State) : (hostReset s).Sound := by
  obtain ⟨hpc, hi, hdepth, hentry, hmem⟩ := resetWith_inv s.cfg
  exact .of_running ⟨hpc, hi, hdepth, hentry, hmem⟩ (resetWith_status s.cfg) (resetWith_wait s.cfg)

theorem tick_sound (hs : s.Sound) : (tick s).Sound := by
  obtain ⟨⟨hpc, hi, hdepth, hentry, hmem⟩, hwait, hhalt⟩ := hs
  exact ⟨⟨hpc, hi, hdepth, hentry, hmem⟩, hwait, hhalt⟩

theorem setKey_sound (hs : s.Sound) (k : Nibble) (b : Bool) : (setKey k b s).Sound := by
  obtain ⟨⟨hpc, hi, hdepth, hentry, hmem⟩, hwait, hhalt⟩ := hs
  exact ⟨⟨hpc, hi, hdepth, hentry, hmem⟩, hwait, hhalt⟩

/-- Every step answers, and keeps the invariants. -/
theorem step_sound (hs : s.Sound) : ∃ t, step s = .next t ∧ t.Sound := by
  obtain ⟨t, -, h, -⟩ := everyStepHasOneOfThreeOutcomes s
  exact ⟨t, h, stepKeepsTheInvariant s t hs.inv h, stepKeepsTheWaitAtItsFx0A s t hs.waitInv h,
    stepKeepsTheHaltPrecise s t hs.haltInv h⟩

/-- The core is as a reset leaves it until the first step (ResetState). -/
def State.Fresh (s : State) : Prop := s.status = .running ∧ s.wait = none

/-- A load into a fresh core keeps the invariants, which speak of the instruction at PC only when it waits or is
halted. -/
theorem load_sound (hs : s.Sound) (hfresh : s.Fresh) (image : List Byte) : (s.memWriteBytes 0x200 image).Sound :=
  .of_running (hs.inv.of_armWrites (memWriteBytes_armWrites s _ _)) ((s.memWriteBytes_status _ _).trans hfresh.1)
    ((s.memWriteBytes_wait _ _).trans hfresh.2)

theorem load_fresh (hfresh : s.Fresh) (image : List Byte) : (s.memWriteBytes 0x200 image).Fresh :=
  ⟨(s.memWriteBytes_status _ _).trans hfresh.1, (s.memWriteBytes_wait _ _).trans hfresh.2⟩

/-- A run that keeps the loader contract answers a state with the invariants, by induction on its events: the contract's
flag says when the core is fresh. -/
theorem runEvents_sound {fresh : Bool} {es : List Event} (hs : s.Sound) (hfresh : fresh = true → s.Fresh)
    (hes : keepsLoadContract fresh es = true) : ∃ t, runEvents es s = .next t ∧ t.Sound := by
  induction es generalizing s fresh with
  | nil => exact ⟨s, rfl, hs⟩
  | cons e es ih =>
    cases e with
    | step =>
      obtain ⟨t, h, ht⟩ := step_sound hs
      rw [runEvents_cons_next (e := .step) h]
      exact ih ht (by simp) hes
    | tick => exact ih (tick_sound hs) hfresh hes
    | setKey k b => exact ih (setKey_sound hs k b) hfresh hes
    | readFb | readTimers => exact ih hs hfresh hes
    | load image =>
      simp only [keepsLoadContract, Bool.and_eq_true, decide_eq_true_eq] at hes
      obtain ⟨⟨rfl, hlen⟩, hes⟩ := hes
      rw [runEvents_cons_next (e := .load image) (load_of_le hlen s)]
      exact ih (load_sound hs (hfresh rfl) image) (fun _ => load_fresh (hfresh rfl) image) hes
    | reset => exact ih (hostReset_sound s) (fun _ => ⟨resetWith_status s.cfg, resetWith_wait s.cfg⟩) hes

/-- Settles O55: the induction over runs, from the three invariants. -/
theorem everyInterleavingKeepsTheInvariants : Obligations.EveryInterleavingKeepsTheInvariants := by
  intro fresh es s hinv hwait hhalt hfresh hes
  obtain ⟨t, h, ⟨hinv', hwait', hhalt'⟩⟩ := runEvents_sound ⟨hinv, hwait, hhalt⟩ hfresh hes
  exact ⟨t, h, hinv', hwait', hhalt'⟩

end Sys2Proof.Machine

/-! SUPPORT. The frame of each update of the state that an arm makes, and from them the frame of every instruction
(40_cycle.md R59), the writers of VF (10_state.md R13) and of I (R15). -/

namespace Sys2Proof.Machine

/-! ### Frames compose -/

section
variable {s t u : State}

theorem Part.Same.refl (s : State) (p : Part) : Part.Same s s p := by
  cases p with
  | regs | memory => exact fun _ => rfl
  | screen => exact fun _ _ => rfl
  | index | stack | delay | sound | waiting | status | draws => rfl

/-- An update of one part: whatever another part compares, it compares s with itself. -/
theorem frameBut_of_same {q : Part} (h : ∀ p, p ≠ q → Part.Same s t p = Part.Same s s p) (hkey : t.key = s.key)
    (hcfg : t.cfg = s.cfg) : FrameBut [q] s t :=
  ⟨fun p hp => (h p (List.ne_of_not_mem_cons hp)).mpr (Part.Same.refl s p), hkey, hcfg⟩

theorem FrameBut.mono {parts parts' : List Part} (h : FrameBut parts s t) (hsub : parts ⊆ parts') :
    FrameBut parts' s t :=
  have ⟨hsame, hkey, hcfg⟩ := h
  ⟨fun p hp => hsame p fun hmem => hp (hsub hmem), hkey, hcfg⟩

theorem FrameBut.append {parts parts' : List Part} (h : FrameBut parts s t) (h' : FrameBut parts' t u) :
    FrameBut (parts ++ parts') s u :=
  (h.mono (List.subset_append_left ..)).trans (h'.mono (List.subset_append_right ..))

end

/-! ### One frame per update -/

section
variable (s : State)

theorem setFb_frameBut (fb : Framebuffer) : FrameBut [.screen] s (s.setFb fb) := by
  refine frameBut_of_same (fun p hp => ?_) rfl rfl
  cases p with
  | screen => exact absurd rfl hp
  | _ => rfl

theorem setDt_frameBut (b : Byte) : FrameBut [.delay] s (s.setDt b) := by
  refine frameBut_of_same (fun p hp => ?_) rfl rfl
  cases p with
  | delay => exact absurd rfl hp
  | _ => rfl

theorem setSt_frameBut (b : Byte) : FrameBut [.sound] s (s.setSt b) := by
  refine frameBut_of_same (fun p hp => ?_) rfl rfl
  cases p with
  | sound => exact absurd rfl hp
  | _ => rfl

theorem setWait_frameBut (w : Option Awaiting) : FrameBut [.waiting] s (s.setWait w) := by
  refine frameBut_of_same (fun p hp => ?_) rfl rfl
  cases p with
  | waiting => exact absurd rfl hp
  | _ => rfl

theorem countDraw_frameBut : FrameBut [.draws] s s.countDraw := by
  refine frameBut_of_same (fun p hp => ?_) rfl rfl
  cases p with
  | draws => exact absurd rfl hp
  | _ => rfl

theorem withStack_frameBut (l : List Word) : FrameBut [.stack] s { s with stack := l } := by
  refine frameBut_of_same (fun p hp => ?_) rfl rfl
  cases p with
  | stack => exact absurd rfl hp
  | _ => rfl

theorem withStatus_frameBut (c : Status) : FrameBut [.status] s { s with status := c } := by
  refine frameBut_of_same (fun p hp => ?_) rfl rfl
  cases p with
  | status => exact absurd rfl hp
  | _ => rfl

theorem memWriteBytes_frameBut (a : Nat) (bs : List Byte) : FrameBut [.memory] s (s.memWriteBytes a bs) := by
  obtain ⟨m, hm⟩ := s.memWriteBytes_eq a bs
  rw [hm]
  refine frameBut_of_same (fun p hp => ?_) rfl rfl
  cases p with
  | memory => exact absurd rfl hp
  | _ => rfl

theorem withRegs_frameBut (v : Vector Byte 16) : FrameBut [.regs] s { s with v := v } := by
  refine frameBut_of_same (fun p hp => ?_) rfl rfl
  cases p with
  | regs => exact absurd rfl hp
  | _ => rfl

theorem loadRegs_frameBut (a : Nat) (x : Reg) : FrameBut [.regs] s (s.loadRegs a x) := withRegs_frameBut s _

theorem blockIndexUpdate_frameBut (x : Reg) : FrameBut [.index] s (s.blockIndexUpdate x) := by
  rw [s.blockIndexUpdate_eq]
  split
  · exact setI_frameBut s _
  · exact ⟨fun p _ => Part.Same.refl s p, rfl, rfl⟩

end

/-! ### One frame per instruction -/

variable {s t : State} {i : Instr}

theorem exec_ret_frameBut (h : exec .ret s = .next t) : FrameBut [.stack, .status] s t := by
  rcases List.eq_nil_or_concat' s.stack with hempty | ⟨l, a, htop⟩
  · rw [exec_ret_empty hempty] at h
    cases h; exact (withStatus_frameBut s _).mono (by simp)
  · rw [exec_ret_top htop] at h
    cases h; exact ((withStack_frameBut s l).advance _).mono (by simp)

theorem exec_call_frameBut {nnn : Addr} (h : exec (.call nnn) s = .next t) : FrameBut [.stack, .status] s t := by
  by_cases hfull : s.stack.length = 16
  · rw [exec_call_full hfull] at h
    cases h; exact (withStatus_frameBut s _).mono (by simp)
  · rw [exec_call_room hfull] at h
    cases h; exact ((withStack_frameBut s _).advance _).mono (by simp)

/-- The frame of an instruction is that of its arm's updates; the sequencer adds nothing. -/
theorem exec_frameBut (h : exec i s = .next t) : FrameBut (partsOf i) s t := by
  cases i with
  | ret => exact exec_ret_frameBut h
  | call nnn => exact exec_call_frameBut h
  | cls => rw [finish_eq_next h]; exact (setFb_frameBut s _).advance _
  | ldImm | addImm | ldReg | orReg | andReg | xorReg | ldVxDt =>
    rw [finish_eq_next h]; exact (setReg_frameBut s _ _).advance _
  | addReg | sub | shr | subn | shl => rw [finish_eq_next h]; exact (setResultAndFlag_frameBut s _ _ _).advance _
  | rnd =>
    rw [finish_eq_next h]
    exact (((countDraw_frameBut s).append (setReg_frameBut _ _ _)).mono (by simp [partsOf])).advance _
  | drw =>
    rw [finish_eq_next h]
    exact (((setFb_frameBut s _).append (setReg_frameBut _ _ _)).mono (by simp [partsOf])).advance _
  | ldI | addI | ldF => rw [finish_eq_next h]; exact (setI_frameBut s _).advance _
  | ldVxK => rw [finish_eq_next h]; exact (setWait_frameBut s _).advance _
  | ldDtVx => rw [finish_eq_next h]; exact (setDt_frameBut s _).advance _
  | ldStVx => rw [finish_eq_next h]; exact (setSt_frameBut s _).advance _
  | ldB => rw [finish_eq_next h]; exact (memWriteBytes_frameBut s _ _).advance _
  | stRegs =>
    rw [finish_eq_next h]; exact ((memWriteBytes_frameBut s _ _).append (blockIndexUpdate_frameBut _ _)).advance _
  | ldRegs => rw [finish_eq_next h]; exact ((loadRegs_frameBut s _ _).append (blockIndexUpdate_frameBut _ _)).advance _
  | jp | jpV0 | seImm | sneImm | seReg | sneReg | skp | sknp | unknown =>
    rw [finish_eq_next h]; exact advance_frameBut s _

/-- Settles O46, by instruction. -/
theorem instructionsWriteOnlyTheirParts : Obligations.InstructionsWriteOnlyTheirParts := fun _ _ _ => exec_frameBut

/-- A part that an instruction does not write is the same after it. -/
theorem exec_same {p : Part} (h : exec i s = .next t) (hp : p ∉ partsOf i) : Part.Same s t p :=
  (exec_frameBut h).1 p hp

/-! ### The writers of VF and of I -/

theorem setReg_vf_other {x : Reg} (hx : (x == vf) = false) (b : Byte) : (s.setReg x b).reg vf = s.reg vf :=
  setReg_reg_other s (Ne.symm (by simpa using hx)) b

/-- A block load reaches VF with x = F alone. -/
theorem loadRegs_vf_other {x : Reg} (hx : (x == vf) = false) (a : Nat) : (s.loadRegs a x).reg vf = s.reg vf := by
  have hlt : ¬vf.toNat ≤ x.toNat := fun hle => by
    have hx15 : x.toNat = vf.toNat := Nat.le_antisymm (Nat.le_of_lt_succ x.isLt) hle
    simp [BitVec.eq_of_toNat_eq hx15] at hx
  rw [reg_loadRegs, if_neg hlt]

/-- Settles O47: an instruction that writes no register leaves VF by its frame, and the others write Vx. -/
theorem vfWriters : Obligations.VfWriters := by
  intro i s t h hvf
  cases i with
  | ldImm | addImm | ldReg | orReg | andReg | xorReg | rnd | ldVxDt =>
    rw [finish_eq_next h]; exact setReg_vf_other hvf _
  | ldRegs x =>
    rw [finish_eq_next h, State.advance_reg, State.blockIndexUpdate_reg]
    exact loadRegs_vf_other hvf _
  | addReg | sub | shr | subn | shl | drw => cases hvf
  | _ => exact exec_same (p := .regs) h (by simp [partsOf]) vf

/-- The block transfers move I past the last byte in the compatibility mode alone (43_index_memory.md R93, R94). -/
theorem exec_stRegs_index {x : Reg} (h : exec (.stRegs x) s = .next t) :
    t.i = if s.cfg.blockIndexIncrement then addr16 (s.i.toNat + x.toNat + 1) else s.i := by
  rw [finish_eq_next h]; simp

theorem exec_ldRegs_index {x : Reg} (h : exec (.ldRegs x) s = .next t) :
    t.i = if s.cfg.blockIndexIncrement then addr16 (s.i.toNat + x.toNat + 1) else s.i := by
  rw [finish_eq_next h, State.advance_i, State.blockIndexUpdate_i]; rfl

/-- Whatever an instruction writes to I is a 12-bit address. -/
theorem exec_index_le (h : exec i s = .next t) (hi : t.i ≠ s.i) : t.i.toNat ≤ 0xFFF := by
  obtain ⟨u, k, hwrites, rfl⟩ | ⟨e, rfl⟩ := exec_writes h
  · exact hwrites.i_eq.resolve_left hi
  · exact absurd rfl hi

/-- Settles O48: an instruction without I in its frame leaves it. -/
theorem indexWriters : Obligations.IndexWriters := by
  intro i s t h hi
  refine ⟨exec_index_le h hi, ?_⟩
  cases i with
  | ldI nnn => exact .inl ⟨nnn, rfl⟩
  | addI x => exact .inr (.inl ⟨x, rfl⟩)
  | ldF x => exact .inr (.inr (.inl ⟨x, rfl⟩))
  | stRegs x =>
    have hmode : s.cfg.blockIndexIncrement = true := by
      by_contra hmode; exact hi (by rw [exec_stRegs_index h, if_neg hmode])
    exact .inr (.inr (.inr ⟨hmode, .inl ⟨x, rfl⟩⟩))
  | ldRegs x =>
    have hmode : s.cfg.blockIndexIncrement = true := by
      by_contra hmode; exact hi (by rw [exec_ldRegs_index h, if_neg hmode])
    exact .inr (.inr (.inr ⟨hmode, .inr ⟨x, rfl⟩⟩))
  | _ => exact absurd (exec_same (p := .index) h (by simp [partsOf])) hi

end Sys2Proof.Machine

/-! SUPPORT. Control transfer and fatal errors (41_control_flow.md, 60_exceptions.md R107): each next state as the model
gives it, and its frame. -/

namespace Sys2Proof.Machine

variable {s : State}

/-! ### RET and CALL (R65, R67) -/

/-- Settles O13: the top entry is popped and PC goes to it + 2. -/
theorem retResumesAfterTheCall : Obligations.RetResumesAfterTheCall := fun s l a h =>
  ⟨_, exec_ret_top h, addr16_toNat (a.toNat + 2), rfl, (withStack_frameBut s l).advance _⟩

/-- A 12-bit target is left as it is by the mask of PC. -/
theorem addr16_addr_toNat (nnn : Addr) : (addr16 nnn.toNat).toNat = nnn.toNat := by
  rw [addr16_toNat, mask12_of_le (Nat.le_of_lt_succ nnn.isLt)]

/-- Settles O15: the entry pushed is the PC, and PC goes to nnn. -/
theorem callPushesItsAddress : Obligations.CallPushesItsAddress := fun s nnn h =>
  ⟨_, exec_call_room (Nat.ne_of_lt h) nnn, addr16_addr_toNat nnn, rfl, (withStack_frameBut s _).advance _⟩

/-- Settles O19: the entry that RET pops is the one that CALL pushed. -/
theorem callThenRetComesBack : Obligations.CallThenRetComesBack := by
  intro s u nnn h
  obtain ⟨t, hcall, -, hpushed, -⟩ := callPushesItsAddress s nnn h
  refine ⟨t, hcall, fun hstack => ?_⟩
  obtain ⟨v, hret, hpc, hpopped, -⟩ := retResumesAfterTheCall u s.stack s.pc (hstack.trans hpushed)
  exact ⟨v, hret, hpc, hpopped⟩

/-- Settles O20: CALL on a full stack and RET on an empty one. -/
theorem fatalErrorWritesTheStatusAlone : Obligations.FatalErrorWritesTheStatusAlone :=
  ⟨fun _ nnn h => exec_call_full h nnn, fun _ => exec_ret_empty⟩

/-! ### The jumps (R66, R68) -/

theorem exec_jp (s : State) (nnn : Addr) : exec (.jp nnn) s = .next (s.advance (.jump nnn.toNat)) := rfl

/-- A jump to the instruction's own address. -/
theorem advance_jump_self (h : s.pc.toNat ≤ 0xFFF) : s.advance (.jump s.pc.toNat) = s := by
  rw [State.advance, nextPc, addr16_of_le h]

/-- Settles O14: the sequencer's Jump and nothing else. -/
theorem jpGoesToItsTarget : Obligations.JpGoesToItsTarget := by
  refine fun s nnn => ⟨_, exec_jp s nnn, addr16_addr_toNat nnn, advance_frameBut s _, fun hself => ?_⟩
  rw [← hself]
  exact advance_jump_self (hself ▸ Nat.le_of_lt_succ nnn.isLt)

theorem exec_jpV0 (s : State) (nnn : Addr) :
    exec (.jpV0 nnn) s = .next (s.advance (.jump (nnn.toNat + (s.reg 0).toNat))) := rfl

/-- Settles O16: the sequencer's Jump and nothing else. -/
theorem jpV0AddsRegisterZero : Obligations.JpV0AddsRegisterZero := fun s nnn =>
  ⟨_, exec_jpV0 s nnn, addr16_toNat (nnn.toNat + (s.reg 0).toNat), advance_frameBut s _⟩

end Sys2Proof.Machine

/-! SUPPORT. The register writes that set no flag, and the flag writes into VF itself (42_alu.md R75 to R87), the timer
instructions (45_input_timers.md R103 to R105) and the sum in I (43_index_memory.md R90). -/

namespace Sys2Proof.Machine

/-! ### One register write (42_alu.md R77 to R81) -/

/-- A register write that the sequencer follows leaves every other register and every other part. -/
theorem setReg_effect (s : State) (x : Reg) (b : Byte) : RegsBut [x] s ((s.setReg x b).advance .seq) ∧
    FrameBut [.regs] s ((s.setReg x b).advance .seq) ∧ PcPlus 2 s ((s.setReg x b).advance .seq) :=
  ⟨setReg_regsBut s x b, (setReg_frameBut s x b).advance .seq, advance_seq_pcPlus (s.setReg x b)⟩

section
variable (s : State) (x y : Reg)

theorem exec_addImm (nn : Byte) : exec (.addImm x nn) s = .next ((s.setReg x (s.reg x + nn)).advance .seq) := rfl

theorem exec_ldReg : exec (.ldReg x y) s = .next ((s.setReg x (s.reg y)).advance .seq) := rfl

theorem exec_orReg : exec (.orReg x y) s = .next ((s.setReg x (s.reg x ||| s.reg y)).advance .seq) := rfl

theorem exec_andReg : exec (.andReg x y) s = .next ((s.setReg x (s.reg x &&& s.reg y)).advance .seq) := rfl

theorem exec_xorReg : exec (.xorReg x y) s = .next ((s.setReg x (s.reg x ^^^ s.reg y)).advance .seq) := rfl

theorem exec_ldVxDt : exec (.ldVxDt x) s = .next ((s.setReg x s.dt).advance .seq) := rfl

end

/-- Settles O26: the one register written holds the sum of two bytes. -/
theorem addImmediateWrapsWithoutFlag : Obligations.AddImmediateWrapsWithoutFlag := by
  refine fun s x nn => ⟨_, exec_addImm s x nn, ?_, setReg_effect s x _⟩
  rw [State.advance_reg, setReg_reg_same, BitVec.toNat_add]

/-- Settles O27: the one register written holds the copy or the bitwise result. -/
theorem copyAndBitwiseOperations : Obligations.CopyAndBitwiseOperations := fun s x y =>
  ⟨⟨_, exec_ldReg s x y, by simp, setReg_effect s x _⟩,
   ⟨_, exec_orReg s x y, by simp, setReg_effect s x _⟩,
   ⟨_, exec_andReg s x y, by simp, setReg_effect s x _⟩,
   ⟨_, exec_xorReg s x y, by simp, setReg_effect s x _⟩⟩

/-! ### The flag in VF (42_alu.md R75) -/

/-- With VF as the destination the flag overwrites the result. -/
theorem setResultAndFlag_flagEffect (s : State) (res f : Byte) :
    FlagEffect f.toNat s ((s.setResultAndFlag vf res f).advance .seq) := by
  have hflag : (s.setResultAndFlag vf res f).reg vf = f := by rw [setResultAndFlag_reg, if_pos rfl]
  refine ⟨congrArg BitVec.toNat hflag, fun r hr => ?_, (setResultAndFlag_frameBut s vf res f).advance .seq,
    advance_seq_pcPlus (s.setResultAndFlag vf res f)⟩
  exact setResultAndFlag_regsBut s vf res f r (by simpa using hr)

/-- An instruction whose writes are a result and a flag, both in VF, has the flag's effect. -/
theorem exec_flagEffect {i : Instr} {s : State} {res f : Byte} {g : Nat}
    (hexec : exec i s = .next ((s.setResultAndFlag vf res f).advance .seq)) (hflag : f.toNat = g) :
    ∃ t, exec i s = .next t ∧ FlagEffect g s t :=
  ⟨_, hexec, hflag ▸ setResultAndFlag_flagEffect s res f⟩

/-- Settles O29, operation by operation: what it writes, and the number that its flag is. -/
theorem flagIsTheLastWordInVf : Obligations.FlagIsTheLastWordInVf := fun s y =>
  ⟨exec_flagEffect (exec_addReg s vf y) (carryFlag_toNat _ _),
   exec_flagEffect (exec_sub s vf y) (notBorrowFlag_toNat _ _),
   exec_flagEffect (exec_subn s vf y) (notBorrowFlag_toNat _ _),
   exec_flagEffect (exec_shr s vf y) (shiftedOutRight_toNat _),
   exec_flagEffect (exec_shl s vf y) (shiftedOutLeft_toNat _)⟩

/-! ### The random byte (42_alu.md R87) -/

/-- The state after Cxnn with the draw r. -/
theorem rndWith_eq (r : Byte) (x : Reg) (nn : Byte) (s : State) :
    rndWith r x nn s = .next ((s.countDraw.setReg x (r &&& nn)).advance .seq) := rfl

theorem exec_rnd (s : State) (x : Reg) (nn : Byte) : exec (.rnd x nn) s = rndWith s.drawnByte x nn s := rfl

/-- Settles O30: the draw is counted and its masked byte is the one register written. -/
theorem randomByteIsMasked : Obligations.RandomByteIsMasked := by
  refine fun s x nn => ⟨?_, fun r => ⟨_, rndWith_eq r x nn s, by simp, ?_⟩⟩
  · have hexec := (exec_rnd s x nn).trans (rndWith_eq s.drawnByte x nn s)
    exact ⟨_, hexec, setReg_reg_same s.countDraw x _, rfl, setReg_regsBut s.countDraw x _, exec_frameBut hexec,
      advance_seq_pcPlus (s.countDraw.setReg x _)⟩
  · rintro rfl
    simp

/-! ### ADD I, Vx (43_index_memory.md R90) -/

theorem exec_addI (s : State) (x : Reg) :
    exec (.addI x) s = .next ((s.setI (s.i.toNat + (s.reg x).toNat)).advance .seq) := rfl

/-- Settles O32: the one index write that the sequencer follows. -/
theorem addToIndexWraps : Obligations.AddToIndexWraps := fun s x =>
  ⟨_, exec_addI s x, addr16_toNat (s.i.toNat + (s.reg x).toNat), exec_frameBut (exec_addI s x),
    advance_seq_pcPlus (s.setI _)⟩

/-! ### The timers (45_input_timers.md R103 to R105) -/

theorem exec_ldDtVx (s : State) (x : Reg) : exec (.ldDtVx x) s = .next ((s.setDt (s.reg x)).advance .seq) := rfl

theorem exec_ldStVx (s : State) (x : Reg) : exec (.ldStVx x) s = .next ((s.setSt (s.reg x)).advance .seq) := rfl

/-- Settles O45: a register write, and the two timer writes. -/
theorem timerInstructions : Obligations.TimerInstructions := fun s x =>
  ⟨⟨_, exec_ldVxDt s x, setReg_reg_same s x _, setReg_effect s x _⟩,
   ⟨_, exec_ldDtVx s x, rfl, exec_frameBut (exec_ldDtVx s x), advance_seq_pcPlus (s.setDt _)⟩,
   ⟨_, exec_ldStVx s x, rfl, exec_frameBut (exec_ldStVx s x), advance_seq_pcPlus (s.setSt _)⟩⟩

end Sys2Proof.Machine

/-! SUPPORT. The memory transfers of 43_index_memory.md R92 to R94: what each byte reads as afterwards, and that a word
stored ahead of PC is the next one fetched (20_memory.md R37). -/

namespace Sys2Proof.Machine

variable {s : State}

/-! ### The BCD store (R92) -/

/-- Bytes written from I up leave every byte outside them. -/
theorem memWriteBytes_memBut (s : State) (bs : List Byte) : MemBut bs.length s (s.memWriteBytes s.i.toNat bs) :=
  fun _ => memRead_memWriteBytes_other s

theorem exec_ldB (s : State) (x : Reg) :
    exec (.ldB x) s = .next ((s.memWriteBytes s.i.toNat (bcdDigits (s.reg x))).advance .seq) := rfl

/-- A decimal digit of a byte fits in a byte. -/
theorem ofNat_byte_toNat {n : Nat} (h : n < 256) : (BitVec.ofNat 8 n).toNat = n := by
  rw [BitVec.toNat_ofNat]; exact Nat.mod_eq_of_lt h

/-- Settles O34: three bytes written, each a digit. -/
theorem bcdStore : Obligations.BcdStore := by
  refine fun s x => ⟨_, exec_ldB s x, fun hwf => ?_, memWriteBytes_memBut s (bcdDigits (s.reg x)),
    exec_frameBut (exec_ldB s x), ?_⟩
  · have hread {k : Nat} (hk : k < (bcdDigits (s.reg x)).length) := memRead_memWriteBytes_get s hwf (a := s.i.toNat)
      (show (bcdDigits (s.reg x)).length ≤ 4096 by simp [bcdDigits]) hk
    have hbyte := (s.reg x).isLt
    simp only [State.advance_memRead]
    refine ⟨?_, ?_, ?_⟩
    · exact (congrArg BitVec.toNat (hread (k := 0) (Nat.succ_pos _))).trans (ofNat_byte_toNat (by omega))
    · exact (congrArg BitVec.toNat (hread (k := 1) (by simp [bcdDigits]))).trans (ofNat_byte_toNat (by omega))
    · exact (congrArg BitVec.toNat (hread (k := 2) (by simp [bcdDigits]))).trans (ofNat_byte_toNat (by omega))
  · simpa [PcPlus] using advance_seq_pcPlus (s.memWriteBytes s.i.toNat (bcdDigits (s.reg x)))

/-! ### The block transfers (R93, R94) -/

theorem exec_stRegs (s : State) (x : Reg) : exec (.stRegs x) s =
    .next (((s.memWriteBytes s.i.toNat (s.regsUpTo x)).blockIndexUpdate x).advance .seq) := rfl

theorem exec_ldRegs (s : State) (x : Reg) : exec (.ldRegs x) s =
    .next (((s.loadRegs s.i.toNat x).blockIndexUpdate x).advance .seq) := rfl

/-- The byte at I + r after the store is Vr. -/
theorem memWriteBytes_regsUpTo_memRead (hwf : Memory.wf s.cfg s.mem) {x r : Reg} (hr : r.toNat ≤ x.toNat) :
    (s.memWriteBytes s.i.toNat (s.regsUpTo x)).memRead (s.i.toNat + r.toNat) = s.reg r := by
  have hlen := regsUpTo_length s x
  have hlt : r.toNat < (s.regsUpTo x).length := by omega
  rw [memRead_memWriteBytes_get s hwf (by omega) hlt, regsUpTo_getElem]

/-- The index after a block transfer, by the mode. -/
theorem index_of_mode {i : Word} {c : Bool} {n : Nat} (h : i = if c then addr16 n else s.i) :
    (c = false → i = s.i) ∧ (c = true → i.toNat = n % 4096) := by
  subst h
  cases c with
  | false => simp
  | true => simp [mask12]

/-- Settles O35: the bytes written are the registers, and the index update changes no byte. -/
theorem blockStore : Obligations.BlockStore := by
  intro s x
  obtain ⟨hoff, hon⟩ := index_of_mode (exec_stRegs_index (exec_stRegs s x))
  refine ⟨_, exec_stRegs s x, fun hwf r hr => ?_, fun a ha => ?_, exec_frameBut (exec_stRegs s x), hoff, hon, ?_⟩
  · rw [State.advance_memRead, State.blockIndexUpdate_memRead, memWriteBytes_regsUpTo_memRead hwf hr]
  · rw [State.advance_memRead, State.blockIndexUpdate_memRead]
    exact memWriteBytes_memBut s (s.regsUpTo x) a (regsUpTo_length s x ▸ ha)
  · simpa [PcPlus] using advance_seq_pcPlus ((s.memWriteBytes s.i.toNat (s.regsUpTo x)).blockIndexUpdate x)

/-- Settles O36: the registers loaded, and the index update changes no register. -/
theorem blockLoad : Obligations.BlockLoad := by
  intro s x
  obtain ⟨hoff, hon⟩ := index_of_mode (exec_ldRegs_index (exec_ldRegs s x))
  refine ⟨_, exec_ldRegs s x, fun r => ?_, exec_frameBut (exec_ldRegs s x), hoff, hon, ?_⟩
  · rw [State.advance_reg, State.blockIndexUpdate_reg, reg_loadRegs]
  · simpa [PcPlus] using advance_seq_pcPlus ((s.loadRegs s.i.toNat x).blockIndexUpdate x)

/-! ### Self-modifying code (20_memory.md R37) -/

theorem memRead_congr (s : State) {a b : Nat} (h : mask12 a = mask12 b) : s.memRead a = s.memRead b := by
  rw [← memRead_mask12 s a, h, memRead_mask12]

/-- Settles O37: PC moves on to the address where the block store put Vr, and the next byte is Vr+1. -/
theorem storedWordIsFetchedNext : Obligations.StoredWordIsFetchedNext := by
  intro s x r q hwf hq hqx hat
  obtain ⟨t, hexec, hstored, -, -, -, -, hpc⟩ := blockStore s x
  have hpc' : t.pc.toNat = mask12 (s.i.toNat + r.toNat) := hpc.trans hat
  have hnext : mask12 (t.pc.toNat + 1) = mask12 (s.i.toNat + q.toNat) := by
    rw [hpc', hq]; unfold mask12; omega
  refine ⟨t, hexec, ?_⟩
  rw [State.fetchWord, memRead_congr t hnext, hpc', memRead_mask12, hstored hwf r (by omega), hstored hwf q hqx]

end Sys2Proof.Machine

/-! SUPPORT. The display instructions (44_display.md): what Dxyn flips in the terms of SpriteCovers, and the double
draw. -/

namespace Sys2Proof.Machine

variable {s t u : State} {x y : Reg} {n : Nibble}

/-! ### CLS (R95) -/

theorem exec_cls (s : State) : exec .cls s = .next ((s.setFb Framebuffer.clear).advance .seq) := rfl

/-- Settles O38: the one framebuffer write that the sequencer follows. -/
theorem clearScreen : Obligations.ClearScreen := fun s =>
  ⟨_, exec_cls s, pixel_clear, exec_frameBut (exec_cls s), advance_seq_pcPlus (s.setFb _)⟩

/-! ### DRW (R96) -/

/-- A set bit of the sprite lies on the pixel, whose coordinates wrap. -/
def State.spriteOn (s : State) (x y : Reg) (n : Nibble) (px py : Nat) : Prop :=
  rowsOn (s.spriteBytes n) (s.reg x).toNat (s.reg y).toNat px py

theorem spriteOn_iff {px py : Nat} : s.spriteOn x y n px py ↔ SpriteCovers s x y n (px % 64) (py % 32) := by
  simp [State.spriteOn, rowsOn, rowOn, bitOn, SpriteCovers, State.spriteBytes]

theorem spriteCovers_lt {px py : Nat} (h : SpriteCovers s x y n px py) : px < 64 ∧ py < 32 := by
  obtain ⟨r, c, -, -, -, rfl, rfl⟩ := h
  exact ⟨Nat.mod_lt _ (by decide), Nat.mod_lt _ (by decide)⟩

theorem spriteOn_iff_of_lt {px py : Nat} (hx : px < 64) (hy : py < 32) :
    s.spriteOn x y n px py ↔ SpriteCovers s x y n px py := by
  rw [spriteOn_iff, Nat.mod_eq_of_lt hx, Nat.mod_eq_of_lt hy]

/-- Some pixel of the colour b lies under the sprite, named by any coordinates or by those on the screen. -/
theorem exists_spriteOn_iff {fb : Framebuffer} {b : Bool} :
    (∃ px py, s.spriteOn x y n px py ∧ fb.pixel px py = b) ↔
      ∃ px py, SpriteCovers s x y n px py ∧ fb.pixel px py = b := by
  constructor
  · rintro ⟨px, py, hon, hpixel⟩
    exact ⟨px % 64, py % 32, spriteOn_iff.mp hon, (pixel_mod fb px py).trans hpixel⟩
  · rintro ⟨px, py, hcovers, hpixel⟩
    obtain ⟨hx, hy⟩ := spriteCovers_lt hcovers
    exact ⟨px, py, (spriteOn_iff_of_lt hx hy).mpr hcovers, hpixel⟩

/-- The state after Dxyn: the drawn framebuffer, then the flag in VF. -/
def State.afterDraw (s : State) (x y : Reg) (n : Nibble) : State :=
  ((s.setFb (s.drawn x y n).fb).setReg vf (flagOf (s.drawn x y n).hit)).advance .seq

theorem exec_drw (s : State) (x y : Reg) (n : Nibble) : exec (.drw x y n) s = .next (s.afterDraw x y n) := rfl

theorem afterDraw_flip {px py : Nat} (h : s.spriteOn x y n px py) :
    (s.afterDraw x y n).fb.pixel px py = !s.fb.pixel px py := (drawn_flipped s x y n).flip px py h

theorem afterDraw_keep {px py : Nat} (h : ¬s.spriteOn x y n px py) :
    (s.afterDraw x y n).fb.pixel px py = s.fb.pixel px py := (drawn_flipped s x y n).keep px py h

/-- A hit is a pixel under the sprite that was on. -/
theorem drawn_hit_iff : (s.drawn x y n).hit = true ↔ ∃ px py, s.spriteOn x y n px py ∧ s.fb.pixel px py = true :=
  (drawn_flipped s x y n).hit.trans (or_iff_right Bool.false_ne_true)

theorem afterDraw_vf : (s.afterDraw x y n).reg vf = flagOf (s.drawn x y n).hit :=
  setReg_reg_same (s.setFb (s.drawn x y n).fb) vf _

theorem afterDraw_vf_hit (h : ∃ px py, s.spriteOn x y n px py ∧ s.fb.pixel px py = true) :
    (s.afterDraw x y n).reg vf = 1 := by
  rw [afterDraw_vf, drawn_hit_iff.mpr h]; rfl

theorem afterDraw_vf_miss (h : ¬∃ px py, s.spriteOn x y n px py ∧ s.fb.pixel px py = true) :
    (s.afterDraw x y n).reg vf = 0 := by
  rw [afterDraw_vf, Bool.eq_false_iff.mpr (mt drawn_hit_iff.mp h)]; rfl

/-- Settles O39, pixel by pixel and flag by flag. -/
theorem drawFlipsPixelsAndReportsCollision : Obligations.DrawFlipsPixelsAndReportsCollision := by
  refine fun s x y n => ⟨_, exec_drw s x y n, fun px py hx hy => ?_, fun hhit => ?_, fun hmiss => ?_,
    setReg_regsBut (s.setFb _) vf _, exec_frameBut (exec_drw s x y n), advance_seq_pcPlus (State.setReg _ vf _)⟩
  · rw [← spriteOn_iff_of_lt hx hy]
    exact ⟨afterDraw_flip, afterDraw_keep⟩
  · exact afterDraw_vf_hit (exists_spriteOn_iff.mpr hhit)
  · exact afterDraw_vf_miss (mt exists_spriteOn_iff.mp hmiss)

/-! ### The double draw -/

/-- The same coordinates, I and sprite bytes make the same sprite. -/
theorem spriteOn_congr (hx : u.reg x = s.reg x) (hy : u.reg y = s.reg y) (hi : u.i = s.i)
    (hbytes : ∀ k, k < n.toNat → u.memRead (s.i.toNat + k) = s.memRead (s.i.toNat + k)) :
    u.spriteOn x y n = s.spriteOn x y n := by
  have hsprite : u.spriteBytes n = s.spriteBytes n := by
    rw [State.spriteBytes, State.spriteBytes, hi]
    exact List.map_congr_left fun k hk => hbytes k (List.mem_range.mp hk)
  funext px py
  rw [State.spriteOn, State.spriteOn, hsprite, hx, hy]

/-- A pixel under the sprite is on after the draw when it was off before. -/
theorem afterDraw_spriteOn_iff {px py : Nat} :
    (s.spriteOn x y n px py ∧ (s.afterDraw x y n).fb.pixel px py = true) ↔
      s.spriteOn x y n px py ∧ s.fb.pixel px py = false :=
  and_congr_right fun hon => by rw [afterDraw_flip hon, Bool.not_eq_true']

/-- Settles O40: the second draw flips the same pixels back, and its hits are the pixels that the first turned on. -/
theorem doubleDrawRestoresTheScreen : Obligations.DoubleDrawRestoresTheScreen := by
  refine fun s x y n => ⟨_, exec_drw s x y n, fun u hx hy hi hbytes hfb => ⟨_, exec_drw u x y n, ?_⟩⟩
  have hsprite := spriteOn_congr hx hy hi hbytes
  have hhit : (∃ px py, u.spriteOn x y n px py ∧ u.fb.pixel px py = true) ↔
      ∃ px py, SpriteCovers s x y n px py ∧ s.fb.pixel px py = false := by
    rw [← exists_spriteOn_iff, hsprite]
    simp only [hfb, afterDraw_spriteOn_iff]
  refine ⟨fun px py => ?_, fun hturned => afterDraw_vf_hit (hhit.mpr hturned),
    fun hnone => afterDraw_vf_miss (mt hhit.mp hnone)⟩
  by_cases hon : s.spriteOn x y n px py
  · rw [afterDraw_flip (hsprite ▸ hon), hfb, afterDraw_flip hon, Bool.not_not]
  · rw [afterDraw_keep (hsprite ▸ hon), hfb, afterDraw_keep hon]

end Sys2Proof.Machine

/-! SUPPORT. The key skips and the wait for a key (45_input_timers.md R98 to R102). -/

namespace Sys2Proof.Machine

variable {s : State}

/-! ### The key skips (R98 to R100) -/

/-- The key that Vx names, in either mode for a key number up to 15. -/
theorem keyPressed_eq_keyAt {v : Byte} {k : Nibble} (hmode : s.cfg.keyIndexMode = .lowNibble ∨ v.toNat ≤ 15)
    (hk : k.toNat = v.toNat % 16) : s.keyPressed v = s.keyAt k := by
  obtain rfl : k = lowNibble v := BitVec.eq_of_toNat_eq (hk.trans (lowNibble_toNat v).symm)
  obtain hlow | hle := hmode
  · rw [State.keyPressed, hlow]
  · exact keyPressed_of_le s hle

theorem keyPressed_outOfRange {v : Byte} (hmode : s.cfg.keyIndexMode = .outOfRangeNotPressed) (hv : v.toNat > 15) :
    s.keyPressed v = false := by
  simp only [State.keyPressed, hmode, if_neg (Nat.not_le.mpr hv)]

/-- SKP passes over one word exactly when the key of Vx reads as b, and SKNP when it does not. -/
theorem exec_skp_of {x : Reg} {b : Bool} (h : s.keyPressed (s.reg x) = b) :
    ∃ t, exec (.skp x) s = .next t ∧ PcPlus (if b then 4 else 2) s t ∧ FrameBut [] s t :=
  ⟨s.advance (.skip b), h ▸ rfl, advance_skip_pcPlus s b, advance_frameBut s _⟩

theorem exec_sknp_of {x : Reg} {b : Bool} (h : s.keyPressed (s.reg x) = b) :
    ∃ t, exec (.sknp x) s = .next t ∧ PcPlus (if b then 2 else 4) s t ∧ FrameBut [] s t := by
  refine ⟨s.advance (.skip !b), h ▸ rfl, ?_, advance_frameBut s _⟩
  cases b with
  | false => exact advance_skip_pcPlus s true
  | true => exact advance_skip_pcPlus s false

/-- Settles O41, by how the key of Vx reads. -/
theorem keySkips : Obligations.KeySkips := fun _ _ =>
  ⟨fun hmode _ hk => ⟨exec_skp_of (keyPressed_eq_keyAt hmode hk), exec_sknp_of (keyPressed_eq_keyAt hmode hk)⟩,
   fun hmode hv => ⟨exec_skp_of (keyPressed_outOfRange hmode hv), exec_sknp_of (keyPressed_outOfRange hmode hv)⟩⟩

/-! ### The waiting step (R102) -/

/-- There is one lowest newly pressed key. -/
theorem LowestFresh.unique {prev : Vector Bool 16} {j k : Nibble} (hj : LowestFresh s prev j)
    (hk : LowestFresh s prev k) : j = k :=
  BitVec.eq_of_toNat_eq (Nat.le_antisymm (hj.2 k hk.1) (hk.2 j hj.1))

/-- With no newly pressed key a waiting step samples the latch again. -/
theorem waitStep_of_none_fresh {w : Awaiting} (h : ∀ k, s.freshKey w.prev k = false) :
    waitStep w s = .next ((s.setWait (some ⟨w.x, s.key⟩)).advance .hold) := by
  rcases waitStep_cases w s with ⟨-, hwait⟩ | ⟨k, ⟨hfresh, -⟩, -⟩
  · exact hwait
  · rw [h k] at hfresh; cases hfresh

/-- With newly pressed keys a waiting step takes the lowest one. -/
theorem waitStep_of_lowestFresh {w : Awaiting} {k : Nibble} (h : LowestFresh s w.prev k) :
    waitStep w s = .next (((s.setReg w.x (k.setWidth 8)).setWait none).advance .seq) := by
  rcases waitStep_cases w s with ⟨hnone, -⟩ | ⟨j, hj, hwait⟩
  · have hfresh := h.1
    rw [hnone k] at hfresh; cases hfresh
  · rwa [hj.unique h] at hwait

/-- A key number as a byte. -/
theorem key_setWidth_toNat (k : Nibble) : (k.setWidth 8).toNat = k.toNat :=
  BitVec.toNat_setWidth_of_le (by decide)

/-- Settles O43: the wait alone is written, and PC is held. -/
theorem waitingStepWithoutAFreshKeyResamples : Obligations.WaitingStepWithoutAFreshKeyResamples :=
  fun s _ hrun hw hnone => ⟨_, (step_waiting hrun hw).trans (waitStep_of_none_fresh hnone), rfl, rfl,
    (setWait_frameBut s _).advance _⟩

/-- Settles O44: the key goes into the register, the wait ends, and the sequencer follows. -/
theorem waitingStepTakesTheLowestFreshKey : Obligations.WaitingStepTakesTheLowestFreshKey := by
  refine fun s w k hrun hw hk => ⟨_, (step_waiting hrun hw).trans (waitStep_of_lowestFresh hk), ?_,
    setReg_regsBut s w.x _, rfl, ((setReg_frameBut s w.x _).append (setWait_frameBut _ _)).advance _,
    advance_seq_pcPlus (State.setWait _ _)⟩
  exact (congrArg BitVec.toNat (setReg_reg_same s w.x _)).trans (key_setWidth_toNat k)

/-! ### The entry step and the wait to its end (R101, R102) -/

theorem exec_ldVxK (s : State) (x : Reg) :
    exec (.ldVxK x) s = .next ((s.setWait (some ⟨x, s.key⟩)).advance .hold) := rfl

/-- Settles O42: the entry step's one write, and then the waiting step that takes a key. -/
theorem waitForKeyTakesANewlyPressedKey : Obligations.WaitForKeyTakesANewlyPressedKey := by
  refine fun s x => ⟨_, exec_ldVxK s x, rfl, rfl, (setWait_frameBut s _).advance _, fun latch k hrun hk => ?_⟩
  obtain ⟨u, hstep, hkey, hregs, hwait, -, hpc⟩ := waitingStepTakesTheLowestFreshKey
    (((s.setWait (some ⟨x, s.key⟩)).advance .hold).withKey latch) ⟨x, s.key⟩ k hrun rfl hk
  exact ⟨u, hstep, hkey, hregs, hwait, hpc⟩

end Sys2Proof.Machine

/-! SUPPORT. The sound timer (10_state.md R20): a step with another value in ST does the same. -/

namespace Sys2Proof.Machine

variable {s t : State} {i : Instr}

/-- The state with another value in ST. -/
def State.withSound (s : State) (b : Byte) : State := { s with st := b }

theorem memWriteBytes_withSound (b : Byte) (a : Nat) (bs : List Byte) :
    (s.withSound b).memWriteBytes a bs = (s.memWriteBytes a bs).withSound b := by
  induction bs generalizing s a with
  | nil => rfl
  | cons d bs ih => exact ih (s := s.memWrite a d) (a + 1)

theorem blockIndexUpdate_withSound (b : Byte) (x : Reg) :
    (s.withSound b).blockIndexUpdate x = (s.blockIndexUpdate x).withSound b := by
  rw [State.blockIndexUpdate_eq, State.blockIndexUpdate_eq, apply_ite (State.withSound · b)]
  rfl

/-- Every instruction but Fx18 leaves the value put in: only the calls and the memory transfers need an argument, every
other arm computes the same without looking at ST. -/
theorem exec_withSound (hst : ∀ x, i ≠ .ldStVx x) (h : exec i s = .next t) (b : Byte) :
    exec i (s.withSound b) = .next (t.withSound b) := by
  cases i with
  | ldStVx x => exact absurd rfl (hst x)
  | call nnn =>
    by_cases hfull : s.stack.length = 16
    · rw [exec_call_full hfull] at h
      cases h; exact exec_call_full (s := s.withSound b) hfull nnn
    · rw [exec_call_room hfull] at h
      cases h; exact exec_call_room (s := s.withSound b) hfull nnn
  | ret =>
    rcases List.eq_nil_or_concat' s.stack with hempty | ⟨l, a, htop⟩
    · rw [exec_ret_empty hempty] at h
      cases h; exact exec_ret_empty (s := s.withSound b) hempty
    · rw [exec_ret_top htop] at h
      cases h; exact exec_ret_top (s := s.withSound b) htop
  | ldB x =>
    rw [finish_eq_next h, exec_ldB]
    exact congrArg (Host.Outcome.next <| State.advance · .seq) (memWriteBytes_withSound b _ _)
  | stRegs x =>
    rw [finish_eq_next h, exec_stRegs]
    exact congrArg (Host.Outcome.next <| State.advance · .seq)
      ((congrArg (State.blockIndexUpdate · x) (memWriteBytes_withSound b _ _)).trans (blockIndexUpdate_withSound b x))
  | ldRegs x =>
    rw [finish_eq_next h, exec_ldRegs]
    exact congrArg (Host.Outcome.next <| State.advance · .seq)
      (blockIndexUpdate_withSound (s := s.loadRegs s.i.toNat x) b x)
  | _ => rw [finish_eq_next h]; rfl

/-- A waiting step takes the same key, or samples the same latch. -/
theorem waitStep_withSound {w : Awaiting} (h : waitStep w s = .next t) (b : Byte) :
    waitStep w (s.withSound b) = .next (t.withSound b) := by
  rcases waitStep_cases w s with ⟨hnone, hwait⟩ | ⟨k, hk, hwait⟩ <;> rw [hwait] at h <;> rw [finish_eq_next h]
  · exact waitStep_of_none_fresh (s := s.withSound b) hnone
  · exact waitStep_of_lowestFresh (s := s.withSound b) hk

/-- Settles O50: Fx18 writes Vx over whatever ST held, and every other step leaves the value put in. -/
theorem soundTimerIsNeverRead : Obligations.SoundTimerIsNeverRead := by
  intro s t b h
  rcases step_cases s with ⟨⟨e, hhalted⟩, hstep⟩ | ⟨hrun, w, hw, hstep⟩ | ⟨hrun, hw, hstep⟩ <;> rw [hstep] at h
  · cases h; exact ⟨b, step_halted (s := s.withSound b) hhalted, .inl rfl⟩
  · exact ⟨b, (step_waiting (s := s.withSound b) hrun hw).trans (waitStep_withSound h b), .inl rfl⟩
  · have hexec := step_running (s := s.withSound b) hrun hw
    by_cases hst : ∃ x, s.fetchInstr = .ldStVx x
    · obtain ⟨x, hx⟩ := hst
      rw [hx, exec_ldStVx] at h
      cases h
      refine ⟨s.reg x, hexec.trans ?_, .inr rfl⟩
      exact (congrArg (exec · (s.withSound b)) hx).trans (exec_ldStVx _ x)
    · exact ⟨b, hexec.trans (exec_withSound (not_exists.mp hst) h b), .inl rfl⟩

end Sys2Proof.Machine

/-! SUPPORT. What reset leaves, what load writes, and the other operations of the host (70_reset_and_hazards.md R119,
R122; 20_memory.md R39 to R41). -/

namespace Sys2Proof.Machine

variable {s : State}

/-! ### Reset (R119) -/

/-- Reset memory reads as the reset contents. -/
theorem hostReset_memRead (s : State) {a : Nat} (ha : a ≤ 0xFFF) : (hostReset s).memRead a = s.cfg.resetByte a :=
  congrArg s.cfg.resetByte (mask12_of_le ha)

theorem resetByte_font (c : Config) (k : Fin 80) : c.resetByte k.val = c.font[k] := dif_pos k.isLt

theorem resetByte_zero (c : Config) {a : Nat} (ha : 0x050 ≤ a) : c.resetByte a = 0 := dif_neg (Nat.not_lt.mpr ha)

/-- Settles O57, field by field. -/
theorem resetState : Obligations.ResetState := fun s =>
  ⟨fun r => Vector.getElem_replicate r.isLt, rfl, rfl, rfl, rfl, rfl,
   fun k => (hostReset_memRead s (by omega)).trans (resetByte_font s.cfg k),
   fun _ hle ha => (hostReset_memRead s ha).trans (resetByte_zero s.cfg hle),
   pixel_clear, fun k => Vector.getElem_replicate k.isLt, rfl, rfl, rfl⟩

/-! ### Load (R122) -/

/-- Settles O58: the image's bytes, the bytes outside it, and the frame of a memory write. -/
theorem loadWritesTheImageVerbatim : Obligations.LoadWritesTheImageVerbatim :=
  ⟨fun s _ hlen => ⟨_, load_of_le hlen s, fun hwf _ hk => load_memRead hlen s hwf hk,
      fun _ ha hout => load_memRead_other hlen s ha hout, memWriteBytes_frameBut s _ _,
      s.memWriteBytes_reg _ _, s.memWriteBytes_pc _ _⟩,
   fun _ _ hlen => if_pos hlen⟩

/-- A reset and a load of an image that fits, as a run. -/
theorem runEvents_reset_load (s : State) {image : List Byte} (hlen : image.length ≤ 3584) :
    runEvents [.reset, .load image] s = .next ((hostReset s).memWriteBytes 0x200 image) :=
  (runEvents_cons_next (e := .reset) rfl _).trans (runEvents_cons_next (e := .load image) (load_of_le hlen _) [])

/-- Settles O59: the image in reset memory, and every other byte and field as reset leaves it. -/
theorem resetThenLoadStartsANewProgram : Obligations.ResetThenLoadStartsANewProgram := by
  intro s image hlen
  have hwf : Memory.wf (hostReset s).cfg (hostReset s).mem := Memory.wf_nil s.cfg
  have houtside {a : Nat} (ha : a ≤ 0xFFF) (hout : a < 0x200 ∨ 0x200 + image.length ≤ a) :=
    (load_memRead_other hlen (hostReset s) ha hout).trans (hostReset_memRead s ha)
  refine ⟨_, runEvents_reset_load s hlen, fun k hk => load_memRead hlen _ hwf hk, fun k => ?_, fun a hle hlt => ?_,
    fun a hle ha => ?_, ?_, memWriteBytes_wf _ hwf _ _⟩
  · exact (houtside (by omega) (.inl (by omega))).trans (resetByte_font s.cfg k)
  · exact (houtside (by omega) (.inl hlt)).trans (resetByte_zero s.cfg hle)
  · exact (houtside ha (.inr hle)).trans (resetByte_zero s.cfg (by omega))
  · obtain ⟨m, hm⟩ := (hostReset s).memWriteBytes_eq 0x200 image
    rw [hm]; rfl

/-! ### tick, set_key and the read ports (20_memory.md R39 to R41) -/

/-- A timer's floor is 0, as that of subtraction. -/
theorem countDown_toNat (b : Byte) : (countDown b).toNat = b.toNat - 1 := by
  unfold countDown
  split
  · simp [*]
  · bv_omega

theorem tick_frameBut (s : State) : FrameBut [.delay, .sound] s (tick s) :=
  (setDt_frameBut s (countDown s.dt)).append (setSt_frameBut _ (countDown s.st))

/-- No part of the state that a frame speaks of holds a key. -/
theorem setKey_same (s : State) (k : Nibble) (b : Bool) (p : Part) : Part.Same s (setKey k b s) p := by
  cases p with
  | regs | memory => exact fun _ => rfl
  | screen => exact fun _ _ => rfl
  | index | stack | delay | sound | waiting | status | draws => rfl

/-- The flat framebuffer is the rows end to end. -/
theorem flat_eq_flatten (fb : Framebuffer) : fb.flat = fb.flatten.toList := by
  rw [Framebuffer.flat, List.flatMap_def]
  change _ = (fb.toArray.map Vector.toArray).flatten.toList
  rw [Array.toList_flatten, Array.toList_map, List.map_map]
  rfl

/-- The pixel (x, y) is at index y * 64 + x of the flat framebuffer (10_state.md R21). -/
theorem flat_getElem? (fb : Framebuffer) {x y : Nat} (hx : x < 64) (hy : y < 32) :
    fb.flat[y * 64 + x]? = some (fb.pixel x y) := by
  have hlt : y * 64 + x < 32 * 64 := by omega
  have hrow : (y * 64 + x) / 64 = y % 32 := by omega
  have hcol : (y * 64 + x) % 64 = x % 64 := by omega
  rw [flat_eq_flatten, Vector.getElem?_toList, Vector.getElem?_eq_getElem hlt, Vector.getElem_flatten,
    Framebuffer.pixel]
  simp only [hrow, hcol]

/-- Settles O60, operation by operation. -/
theorem hostOperations : Obligations.HostOperations :=
  ⟨fun s => ⟨countDown_toNat s.dt, countDown_toNat s.st, tick_frameBut s, rfl⟩,
   fun _ => setKey_keyAt,
   fun s k b => ⟨setKey_same s k b, rfl, rfl⟩,
   fun s _ _ => flat_getElem? s.fb,
   fun _ => rfl,
   fun _ => ⟨rfl, rfl⟩⟩

end Sys2Proof.Machine
